-- ==== Sys2Proof/Word.lean ====
section
/-! DEFINITION. The word types of the machine: bytes, 16-bit words, register numbers, key numbers. -/

namespace Sys2Proof

/-- A byte: a general register, a timer, a cell of memory (`10_state.md` R20, R28, R37). -/
abbrev Byte := BitVec 8

/-- A 16-bit word: I, PC, a stack entry, an instruction word (`10_state.md` R23, R27, R30; `30_encoding.md` R70). -/
abbrev Word := BitVec 16

/-- The number of a general register, V0 to VF (`10_state.md` R20). -/
abbrev Reg := Fin 16

/-- The number of a key of the keypad, 0 to F (`10_state.md` R39). -/
abbrev Key := Fin 16

/-- VF, the register that is also the flag (`10_state.md` R22). -/
abbrev vf : Reg := 15

end Sys2Proof
end

