-- ==== Sys2Proof/Syntax.lean ====
section
/-! DEFINITION. The 34 instructions, one constructor for each row of the opcode table (`30_encoding.md` R74), in the
table's order. -/

namespace Sys2Proof

/-- An instruction with its operands (`30_encoding.md` R71, R73). `x` and `y` are register numbers, `nn` the 8-bit
immediate, `nnn` the address already zero-extended to 16 bits, `n` the unsigned sprite height. `nnn` and `n` are wider
types than their fields: `Instr.WellFormed` says which values an encoding can give (log entry 9). -/
inductive Instr where
  /-- `CLS`, 00E0 -/
  | cls
  /-- `RET`, 00EE -/
  | ret
  /-- `JP nnn`, 1nnn -/
  | jp (nnn : Word)
  /-- `CALL nnn`, 2nnn -/
  | call (nnn : Word)
  /-- `SE Vx, nn`, 3xnn -/
  | seImm (x : Reg) (nn : Byte)
  /-- `SNE Vx, nn`, 4xnn -/
  | sneImm (x : Reg) (nn : Byte)
  /-- `SE Vx, Vy`, 5xy0 -/
  | seReg (x y : Reg)
  /-- `LD Vx, nn`, 6xnn -/
  | ldImm (x : Reg) (nn : Byte)
  /-- `ADD Vx, nn`, 7xnn -/
  | addImm (x : Reg) (nn : Byte)
  /-- `LD Vx, Vy`, 8xy0 -/
  | ldReg (x y : Reg)
  /-- `OR Vx, Vy`, 8xy1 -/
  | or (x y : Reg)
  /-- `AND Vx, Vy`, 8xy2 -/
  | and (x y : Reg)
  /-- `XOR Vx, Vy`, 8xy3 -/
  | xor (x y : Reg)
  /-- `ADD Vx, Vy`, 8xy4 -/
  | addReg (x y : Reg)
  /-- `SUB Vx, Vy`, 8xy5 -/
  | sub (x y : Reg)
  /-- `SHR Vx {, Vy}`, 8xy6: `y` is decoded and ignored (R73) -/
  | shr (x y : Reg)
  /-- `SUBN Vx, Vy`, 8xy7 -/
  | subn (x y : Reg)
  /-- `SHL Vx {, Vy}`, 8xyE: `y` is decoded and ignored (R73) -/
  | shl (x y : Reg)
  /-- `SNE Vx, Vy`, 9xy0 -/
  | sneReg (x y : Reg)
  /-- `LD I, nnn`, Annn -/
  | ldI (nnn : Word)
  /-- `JP V0, nnn`, Bnnn -/
  | jpV0 (nnn : Word)
  /-- `RND Vx, nn`, Cxnn -/
  | rnd (x : Reg) (nn : Byte)
  /-- `DRW Vx, Vy, n`, Dxyn -/
  | drw (x y : Reg) (n : Nat)
  /-- `SKP Vx`, Ex9E -/
  | skp (x : Reg)
  /-- `SKNP Vx`, ExA1 -/
  | sknp (x : Reg)
  /-- `LD Vx, DT`, Fx07 -/
  | ldVxDt (x : Reg)
  /-- `LD Vx, K`, Fx0A -/
  | ldVxK (x : Reg)
  /-- `LD DT, Vx`, Fx15 -/
  | ldDtVx (x : Reg)
  /-- `LD ST, Vx`, Fx18 -/
  | ldStVx (x : Reg)
  /-- `ADD I, Vx`, Fx1E -/
  | addI (x : Reg)
  /-- `LD F, Vx`, Fx29 -/
  | ldF (x : Reg)
  /-- `LD B, Vx`, Fx33 -/
  | ldB (x : Reg)
  /-- `LD [I], Vx`, Fx55 -/
  | ldMemVx (x : Reg)
  /-- `LD Vx, [I]`, Fx65 -/
  | ldVxMem (x : Reg)
  deriving DecidableEq, Repr

end Sys2Proof
end

