-- ==== Sys2Proof/WellFormed.lean ====
section
/-! DEFINITION. Which instructions an encoding can give: the bounds of the operand fields that `Instr` holds in wider
types (`30_encoding.md` R71, R73). -/

namespace Sys2Proof

/-- `nnn` is an unsigned 12-bit address (`30_encoding.md` R73). -/
def addressFits (nnn : Word) : Bool := nnn.toNat < 0x1000

/-- `n` is an unsigned count 0 to 15 (`30_encoding.md` R73). -/
def heightFits (n : Nat) : Bool := n < 16

/-- Every operand fits its field of the instruction word. -/
def Instr.wellFormed : Instr → Bool
  | .cls => true
  | .ret => true
  | .jp nnn => addressFits nnn
  | .call nnn => addressFits nnn
  | .seImm _ _ => true
  | .sneImm _ _ => true
  | .seReg _ _ => true
  | .ldImm _ _ => true
  | .addImm _ _ => true
  | .ldReg _ _ => true
  | .or _ _ => true
  | .and _ _ => true
  | .xor _ _ => true
  | .addReg _ _ => true
  | .sub _ _ => true
  | .shr _ _ => true
  | .subn _ _ => true
  | .shl _ _ => true
  | .sneReg _ _ => true
  | .ldI nnn => addressFits nnn
  | .jpV0 nnn => addressFits nnn
  | .rnd _ _ => true
  | .drw _ _ n => heightFits n
  | .skp _ => true
  | .sknp _ => true
  | .ldVxDt _ => true
  | .ldVxK _ => true
  | .ldDtVx _ => true
  | .ldStVx _ => true
  | .addI _ => true
  | .ldF _ => true
  | .ldB _ => true
  | .ldMemVx _ => true
  | .ldVxMem _ => true

/-- The instruction is one that some word encodes. -/
abbrev Instr.WellFormed (i : Instr) : Prop := i.wellFormed = true

end Sys2Proof
end

