-- ==== Sys2Proof/Config.lean ====
section
/-! DEFINITION. The fixed parameters of CORE (`00_scope.md` R6), its configuration inputs (R7), and the one free value of the
model: the byte the random source gives. -/

namespace Sys2Proof

namespace Config

/-- The highest address of MEM (`00_scope.md` R6: `MEM_SIZE`, addresses 0x000 to 0xFFF). -/
def lastAddr : Nat := 0xFFF

/-- `PROG_BASE`: the load address and the PC after reset (`00_scope.md` R6). -/
def progBase : Nat := 0x200

/-- `PROG_MAX`: the longest program, in bytes (`00_scope.md` R6). -/
def progMax : Nat := 3584

/-- `FONT_BASE`: where the 80 font bytes lie (`00_scope.md` R6). -/
def fontBase : Nat := 0x050

/-- FREE VALUE. The byte that draw number `n` after a reset gives when the random source was seeded with `seed`.
No rule constrains it (`44_keywait_random.md` R152), so it has no body: nothing can be proved of its value. Equal seeds
give equal sequences of draws, which is what R152 promises. UNSAFE only for a claim that compares runs of two different
implementations (log entry 5). -/
opaque rndByte (seed n : Nat) : Byte

end Config

/-- The configuration inputs as the host presents them at a reset (`00_scope.md` R7), with the defaults of that rule.
DESIGN CHOICE (log entry 6): `random_seed` and `clock_speed` are numbers, and 0 stands where the rule gives no default. -/
structure ConfigInputs where
  /-- true: sprites wrap at the right and bottom edges; false: they are clipped. -/
  quirkWrapSprites : Bool := true
  /-- true has no meaning: the reset that samples it is refused. -/
  quirkResetVfOnShift : Bool := false
  /-- true: an illegal word is a no-operation; false: it raises UnknownOpcode. -/
  permissiveUnknownOpcode : Bool := false
  /-- seeds the random source. -/
  randomSeed : Nat := 0
  /-- steps per second; no rule reads it (`70_reset_and_hazards.md` R264). -/
  clockSpeed : Nat := 0
  deriving DecidableEq, Repr

/-- The configuration in force: what a reset has sampled and CORE reads (`00_scope.md` R7, `70_reset_and_hazards.md` R250).
`quirk_reset_vf_on_shift` is not here, because only its value false is ever in force; `clock_speed` is not, because
nothing reads it. -/
structure Config where
  /-- `quirk_wrap_sprites`, read by DRW. -/
  quirkWrapSprites : Bool
  /-- `permissive_unknown_opcode`, read by the step. -/
  permissiveUnknownOpcode : Bool
  /-- `random_seed`, read by RND's draw. -/
  randomSeed : Nat
  deriving DecidableEq, Repr

/-- The default configuration (`00_scope.md` R7; the seed is log entry 6). -/
def Config.default : Config :=
  { quirkWrapSprites := true, permissiveUnknownOpcode := false, randomSeed := 0 }

end Sys2Proof
end

