-- ==== Sys2Proof/Machine/Font.lean ====
section
/-! DEFINITION. The font table and what a byte of memory holds after reset (`20_memory.md` R55, R57; `10_state.md` R37). -/

namespace Sys2Proof.Machine

/-- The five bytes of the glyph of each hexadecimal digit, in digit order 0 to F (`20_memory.md` R57). -/
def fontTable : List Byte :=
  [0xF0, 0x90, 0x90, 0x90, 0xF0] ++ [0x20, 0x60, 0x20, 0x20, 0x70]
  ++ [0xF0, 0x10, 0xF0, 0x80, 0xF0] ++ [0xF0, 0x10, 0xF0, 0x10, 0xF0]
  ++ [0x90, 0x90, 0xF0, 0x10, 0x10] ++ [0xF0, 0x80, 0xF0, 0x10, 0xF0]
  ++ [0xF0, 0x80, 0xF0, 0x90, 0xF0] ++ [0xF0, 0x10, 0x20, 0x40, 0x40]
  ++ [0xF0, 0x90, 0xF0, 0x90, 0xF0] ++ [0xF0, 0x90, 0xF0, 0x10, 0xF0]
  ++ [0xF0, 0x90, 0xF0, 0x90, 0x90] ++ [0xE0, 0x90, 0xE0, 0x90, 0xE0]
  ++ [0xF0, 0x80, 0x80, 0x80, 0xF0] ++ [0xE0, 0x90, 0x90, 0x90, 0xE0]
  ++ [0xF0, 0x80, 0xF0, 0x80, 0xF0] ++ [0xF0, 0x80, 0xF0, 0x80, 0x80]

/-- The byte an address holds after reset, before any load: the font at `FONT_BASE`, 0 elsewhere (`10_state.md` R37). -/
def resetByte (a : Nat) : Byte :=
  if Config.fontBase ≤ a then (fontTable[a - Config.fontBase]?).getD 0 else 0

end Sys2Proof.Machine
end

