-- ==== Sys2Proof/Machine/State.lean ====
section
/-! DEFINITION. The state of CORE as plain data (`10_state.md`), the events of its interface (`00_scope.md` R8), the ways
a step can stop, and the state after reset (`10_state.md` R41). -/

namespace Sys2Proof.Machine

/-- `STATUS` (`10_state.md` R33). -/
inductive Status where
  /-- a `step` executes an instruction -/
  | running
  /-- `LD Vx, K` waits for a key press; a `step` changes nothing -/
  | awaitingKey
  /-- a fatal error happened; only `reset` leaves this status -/
  | halted
  deriving DecidableEq, Repr

/-- The four error kinds a step can record (`10_state.md` R35; `60_exceptions.md` R200). -/
inductive FaultKind where
  /-- a memory access outside 0x000 to 0xFFF (R201) -/
  | outOfBounds
  /-- an illegal word (R202) -/
  | unknownOpcode
  /-- CALL with SP = 16 (R203) -/
  | stackOverflow
  /-- RET with SP = 0 (R204) -/
  | stackUnderflow
  deriving DecidableEq, Repr

/-- The fault record (`10_state.md` R35). -/
structure FaultRecord where
  /-- the error kind -/
  kind : FaultKind
  /-- the address of the offending instruction -/
  addr : Word
  /-- its raw word; none when the fetch itself faulted -/
  word : Option Word
  deriving DecidableEq, Repr

/-- The events of the interface, each atomic with respect to an instruction (`00_scope.md` R8). -/
inductive Event where
  /-- `step`: CORE fetches, decodes and executes one instruction -/
  | step
  /-- `tick60`: the timers count down -/
  | tick60
  /-- `key_set(k)`: the host presses key k -/
  | keySet (k : Key)
  /-- `key_clear(k)`: the host releases key k -/
  | keyClear (k : Key)
  /-- `reset`, with the configuration inputs it samples -/
  | reset (inputs : ConfigInputs)
  /-- `load_program(bytes)` -/
  | loadProgram (bytes : List Byte)
  deriving DecidableEq, Repr

/-- The display buffer: 32 rows of 64 pixels, row 0 at the top, column 0 at the left (`10_state.md` R38). -/
abbrev Display := Vector (Vector Bool 64) 32

/-- The memory: the bytes that differ from their reset value, by strictly rising address. `Memory.wf` says so. -/
abbrev Memory := List Host.Cell

/-- The state of CORE. The last two fields are the model's own (log entries 2 and 3). -/
structure State where
  /-- `V[0]` to `V[15]` (`10_state.md` R20) -/
  v : Vector Byte 16
  /-- `I` (R27) -/
  i : Word
  /-- `PC` (R23) -/
  pc : Word
  /-- `DT` (R28) -/
  dt : Byte
  /-- `ST` (R29) -/
  st : Byte
  /-- `STACK[0]` to `STACK[15]` (R30) -/
  stack : Vector Word 16
  /-- `SP`, the number of live stack entries, 0 to 16 (R30) -/
  sp : Fin 17
  /-- `MEM` (R37) -/
  mem : Memory
  /-- `FB` (R38) -/
  fb : Display
  /-- `KEY[0]` to `KEY[15]` (R39) -/
  key : Vector Bool 16
  /-- `STATUS` (R33) -/
  status : Status
  /-- `WAITREG` (R34) -/
  waitReg : Reg
  /-- the fault record, or empty (R35) -/
  fault : Option FaultRecord
  /-- the random source: how many draws it has given since reset (R36) -/
  draws : Nat
  /-- the configuration the last reset sampled (`00_scope.md` R7) -/
  config : Config
  /-- MODEL'S OWN: the load port is open, from a reset to the first `step` or load (`00_scope.md` R8) -/
  loadOpen : Bool
  /-- MODEL'S OWN: the events still to come, oldest first; after the last of them every event is a `step` -/
  events : List Event
  deriving DecidableEq, Repr

/-- Why the machine stops. No instruction stops it: an error of an instruction is a next state whose status is Halted
(`60_exceptions.md` R213). -/
inductive Fault where
  /-- Raised by the event `load_program` alone, on more than 3584 bytes: the load is refused, CORE does not start, and
  there is no run (`60_exceptions.md` R205, `70_reset_and_hazards.md` R256). Safe. -/
  | programTooLarge
  deriving DecidableEq, Repr

/-- Why the model gives no next state. -/
inductive Refusal where
  /-- Raised by an arm of `exec` whose instruction has no meaning yet; no arm is left that raises it. Safe. -/
  | notModelled (mnemonic : String)
  /-- Raised by the event `reset` alone, when it samples `quirk_reset_vf_on_shift` = true, a configuration to which the
  spec gives no meaning and which the model is told to refuse (`00_scope.md` R7). Safe. -/
  | quirkResetVfOnShift
  /-- Raised by the event `load_program` alone, after the first `step` or after a load: the spec gives the host no such
  move (`70_reset_and_hazards.md` R258). Safe. -/
  | loadOutsideContract
  deriving DecidableEq, Repr

/-- What a step, an instruction or an event answers. -/
abbrev Result := Host.Outcome State Fault Refusal

/-- The state a reset leaves when it has sampled `config`: every value is that of the table of `10_state.md` R41. -/
def State.resetWith (config : Config) : State where
  v := Vector.replicate 16 0
  i := 0
  pc := 0x200
  dt := 0
  st := 0
  stack := Vector.replicate 16 0
  sp := 0
  mem := []
  fb := Vector.replicate 32 (Vector.replicate 64 false)
  key := Vector.replicate 16 false
  status := .running
  waitReg := 0
  fault := none
  draws := 0
  config := config
  loadOpen := true
  events := []

/-- The machine right after reset, with the default configuration. -/
def State.reset : State := State.resetWith Config.default

end Sys2Proof.Machine
end

