-- ==== Sys2Proof/Machine/Ops.lean ====
section
/-! DEFINITION. The named operations over memory, registers, stack, display, keypad and status, fetch, and taking an
exception. -/

namespace Sys2Proof.Machine

/-! ## Memory as data -/

/-- The byte at an address: the listed one, else the reset contents. -/
def Memory.get : Memory → Nat → Byte
  | [], a => resetByte a
  | (b, v) :: rest, a => if a = b then v else Memory.get rest a

/-- Forget the listed byte of an address, if there is one. -/
def Memory.erase (m : Memory) (a : Nat) : Memory := m.filter fun c => c.1 != a

/-- Put a cell before the first one with a higher address. -/
def Memory.insert : Memory → Nat → Byte → Memory
  | [], a, v => [(a, v)]
  | (b, u) :: rest, a, v => if a < b then (a, v) :: (b, u) :: rest else (b, u) :: Memory.insert rest a v

/-- Set the byte at an address; the reset contents are never listed. -/
def Memory.put (m : Memory) (a : Nat) (v : Byte) : Memory :=
  if v = resetByte a then m.erase a else (m.erase a).insert a v

/-- The canonical form: addresses strictly rising and inside MEM, and no byte listed that is the reset contents. -/
abbrev Memory.wf (m : Memory) : Prop :=
  m.Pairwise (fun c d => c.1 < d.1) ∧ ∀ c ∈ m, c.1 ≤ Config.lastAddr ∧ c.2 ≠ resetByte c.1

/-! ## Memory of the machine -/

/-- The byte at an address of MEM, for an address already checked. -/
def State.readByte (s : State) (a : Nat) : Byte := s.mem.get a

/-- Set the byte at an address of MEM, for an address already checked. -/
def State.writeByte (s : State) (a : Nat) (v : Byte) : State := { s with mem := s.mem.put a v }

/-- `MemRead(addr, 1)`: none stands for `raise OutOfBounds` (`00_scope.md` R12). -/
def State.memRead (s : State) (a : Nat) : Option Byte :=
  if a ≤ Config.lastAddr then some (s.readByte a) else none

/-- Store bytes at ascending addresses, the first at `a`; for a range already checked. -/
def State.storeBytes (s : State) (a : Nat) : List Byte → State
  | [] => s
  | b :: bs => (s.writeByte a b).storeBytes (a + 1) bs

/-- Instruction fetch: big-endian, at PC and PC + 1 without wrap-around; none stands for `raise OutOfBounds`
(`20_memory.md` R50). -/
def State.fetch (s : State) : Option Word :=
  match s.memRead s.pc.toNat with
  | none => none
  | some hi =>
    match s.memRead (s.pc.toNat + 1) with
    | none => none
    | some lo => some (wordOfBytes hi lo)

/-! ## Registers -/

/-- `V[x]` (`00_scope.md` R11). -/
def State.reg (s : State) (x : Reg) : Byte := s.v[x]

/-- `V[x] <- b`. No register is hard-wired or read-only (`10_state.md` R20, R21). -/
def State.setReg (s : State) (x : Reg) (b : Byte) : State := { s with v := s.v.set x b }

/-- `I <- a`. -/
def State.setI (s : State) (a : Word) : State := { s with i := a }

/-- `DT <- b`. -/
def State.setDt (s : State) (b : Byte) : State := { s with dt := b }

/-- `ST <- b`. -/
def State.setSt (s : State) (b : Byte) : State := { s with st := b }

/-- `PC <- a`. -/
def State.setPc (s : State) (a : Word) : State := { s with pc := a }

/-- `PC <- pc + 2`, one instruction width (`10_state.md` R24). PC is 16 bits; a fetched instruction has pc at most 0xFFE,
so the sum never wraps (R25). -/
def State.advance (s : State) : State := s.setPc (s.pc + 2)

/-- A skip: `PC <- pc + 4` when the condition holds, else `PC <- pc + 2` (`10_state.md` R24). -/
def State.skipIf (s : State) (c : Bool) : State := s.setPc (s.pc + if c then 4 else 2)

/-! ## Call stack (`10_state.md` R30) -/

/-- `STACK[SP] <- a; SP <- SP + 1`; none when all 16 entries are in use. -/
def State.push (s : State) (a : Word) : Option State :=
  if h : s.sp.val < 16 then
    some { s with stack := s.stack.set s.sp.val a h, sp := ⟨s.sp.val + 1, by omega⟩ }
  else none

/-- `SP <- SP - 1`, and the entry just popped; none when the stack is empty. The entry keeps its value. -/
def State.pop (s : State) : Option (Word × State) :=
  if h : 0 < s.sp.val then
    some (s.stack[s.sp.val - 1], { s with sp := ⟨s.sp.val - 1, by omega⟩ })
  else none

/-! ## Display -/

/-- `FB[row][col]`. -/
def Display.pixel (fb : Display) (row : Fin 32) (col : Fin 64) : Bool := fb[row][col]

/-- `FB[row][col] <- FB[row][col] ^ 1`. -/
def Display.flip (fb : Display) (row : Fin 32) (col : Fin 64) : Display :=
  fb.set row (fb[row].set col (!fb[row][col]))

/-- The display with every pixel 0. -/
def Display.clear : Display := Vector.replicate 32 (Vector.replicate 64 false)

/-- `FB[row][col]` of the machine. -/
def State.pixel (s : State) (row : Fin 32) (col : Fin 64) : Bool := s.fb.pixel row col

/-- Replace the display buffer. -/
def State.setFb (s : State) (fb : Display) : State := { s with fb := fb }

/-! ## Keypad and key wait -/

/-- `KEY[k]`. -/
def State.keyDown (s : State) (k : Key) : Bool := s.key[k]

/-- `KEY[k] <- b`. -/
def State.setKey (s : State) (k : Key) (b : Bool) : State := { s with key := s.key.set k b }

/-- `WAITREG <- x; STATUS <- AwaitingKey` (`44_keywait_random.md` R150). -/
def State.beginWait (s : State) (x : Reg) : State := { s with waitReg := x, status := .awaitingKey }

/-- `STATUS <- Running`, when a key press ends the wait (`44_keywait_random.md` R151). -/
def State.endWait (s : State) : State := { s with status := .running }

/-! ## Random source -/

/-- The byte the next draw gives: a free value (`44_keywait_random.md` R152). -/
def State.nextDraw (s : State) : Byte := Config.rndByte s.config.randomSeed s.draws

/-- The random source after one draw. -/
def State.countDraw (s : State) : State := { s with draws := s.draws + 1 }

/-! ## Load port -/

/-- The load port closes at the first `step` and at a load (`00_scope.md` R8). -/
def State.closeLoad (s : State) : State := { s with loadOpen := false }

/-! ## Taking an exception -/

/-- `raise E`: the record gets the kind, PC and the word; STATUS becomes Halted; nothing else changes
(`60_exceptions.md` R213). Nothing returns from it: only a `reset` leaves Halted (`60_exceptions.md` R217), so the return
that stands beside it is `State.resetWith`. -/
def State.raise (s : State) (kind : FaultKind) (word : Option Word) : State :=
  { s with status := .halted, fault := some ⟨kind, s.pc, word⟩ }

/-- An error of the instruction `i` at PC. Its word is the word fetched there, because the words of an instruction and
the instruction determine each other (log entry 8). -/
def State.raiseAt (s : State) (kind : FaultKind) (i : Instr) : State := s.raise kind (some (encode i))

end Sys2Proof.Machine
end

