-- ==== Sys2Proof/Machine/Flags.lean ====
section
/-! DEFINITION. Every flag computation of the spec, and the order in which result and flag are written
(`10_state.md` R22, `40_alu.md` R101). -/

namespace Sys2Proof.Machine

/-- A flag as VF holds it: exactly 0 or 1 (`10_state.md` R22). -/
def flagByte (b : Bool) : Byte := if b then 1 else 0

/-- Carry out of bit 7 of a + b (`40_alu.md` R108). -/
def carryFlag (a b : Byte) : Bool := a.toNat + b.toNat > 255

/-- Not-borrow of a - b: equality is no borrow (`40_alu.md` R109). -/
def notBorrowFlag (a b : Byte) : Bool := a.toNat ≥ b.toNat

/-- The bit a right shift by one pushes out (`40_alu.md` R110). -/
def shiftOutRight (a : Byte) : Bool := a.getLsbD 0

/-- The bit a left shift by one pushes out (`40_alu.md` R111). -/
def shiftOutLeft (a : Byte) : Bool := a.getLsbD 7

/-- `VF <- flag`. -/
def State.setFlag (s : State) (b : Bool) : State := s.setReg vf (flagByte b)

/-- First `V[x] <- result`, then `VF <- flag`, so with x = 15 the flag stays (`40_alu.md` R101). -/
def State.setResultFlag (s : State) (x : Reg) (result : Byte) (flag : Bool) : State :=
  (s.setReg x result).setFlag flag

end Sys2Proof.Machine
end

