-- ==== Sys2Proof/Machine/Operands.lean ====
section
/-! DEFINITION. Every operand form of the spec: the low nibble of a register, the address of a glyph, I with an ascending
offset, the registers V0 to Vx, decimal digits, and the place of a sprite's pixels. -/

namespace Sys2Proof.Machine

/-- `b[3:0]`: the key or digit a register selects (`43_skips.md` R144, `45_index_memory_timers.md` R162). -/
def lowNibble (b : Byte) : Fin 16 := (b.extractLsb' 0 4).toFin

/-- `FONT_BASE + 5 * d` (`45_index_memory_timers.md` R162). -/
def glyphAddr (d : Fin 16) : Word := BitVec.ofNat 16 (Config.fontBase + 5 * d.val)

/-- The effective address I + k, an unbounded natural (`45_index_memory_timers.md` R169, `00_scope.md` R12). -/
def State.ea (s : State) (k : Nat) : Nat := s.i.toNat + k

/-- The bytes I to I + k lie inside MEM; the check on the highest address covers all (`20_memory.md` R54). -/
def State.reaches (s : State) (k : Nat) : Bool := s.ea k ≤ Config.lastAddr

/-- The sixteen registers, V0 first. -/
def allRegs : List Reg := [0, 1, 2, 3, 4, 5, 6, 7, 8, 9, 10, 11, 12, 13, 14, 15]

/-- The registers V0 to Vx, V0 first (`10_state.md` R20: "a count from 0 to x"). -/
def regsUpTo (x : Reg) : List Reg := allRegs.filter (· ≤ x)

/-- Hundreds, tens and ones of a byte (`45_index_memory_timers.md` R163). -/
def decimalDigits (b : Byte) : List Byte :=
  [BitVec.ofNat 8 (b.toNat / 100), BitVec.ofNat 8 (b.toNat / 10 % 10), BitVec.ofNat 8 (b.toNat % 10)]

/-- A sprite's start column, V[x] mod 64, in both quirk modes (`41_display.md` R121). -/
def startColumn (b : Byte) : Nat := b.toNat % 64

/-- A sprite's start row, V[y] mod 32, in both quirk modes (`41_display.md` R121). -/
def startRow (b : Byte) : Nat := b.toNat % 32

/-- Pixel c of a sprite row: bit 7 is the leftmost (`41_display.md` R121). -/
def spriteBit (b : Byte) (c : Nat) : Bool := b.getLsbD (7 - c)

/-- The display pixel that a sprite pixel at (row, col) lands on: both coordinates wrap, or the pixel is clipped
(`41_display.md` R121). -/
def pixelTarget (wrap : Bool) (row col : Nat) : Option (Fin 32 × Fin 64) :=
  if wrap then some (⟨row % 32, by omega⟩, ⟨col % 64, by omega⟩)
  else if h : row < 32 ∧ col < 64 then some (⟨row, h.1⟩, ⟨col, h.2⟩)
  else none

end Sys2Proof.Machine
end

