-- ==== Sys2Proof/Machine/Alu.lean ====
section
/-! DEFINITION. Loads, arithmetic, logic and shifts (`40_alu.md`). -/

namespace Sys2Proof.Machine

/-- `LD Vx, nn` (`40_alu.md` R102). -/
def execLdImm (x : Reg) (nn : Byte) (s : State) : Result := .next (s.setReg x nn).advance

/-- `ADD Vx, nn`: wraps, writes no flag (`40_alu.md` R103). -/
def execAddImm (x : Reg) (nn : Byte) (s : State) : Result := .next (s.setReg x (s.reg x + nn)).advance

/-- `LD Vx, Vy` (`40_alu.md` R104). -/
def execLdReg (x y : Reg) (s : State) : Result := .next (s.setReg x (s.reg y)).advance

/-- `OR Vx, Vy`: writes no flag (`40_alu.md` R105). -/
def execOr (x y : Reg) (s : State) : Result := .next (s.setReg x (s.reg x ||| s.reg y)).advance

/-- `AND Vx, Vy`: writes no flag (`40_alu.md` R106). -/
def execAnd (x y : Reg) (s : State) : Result := .next (s.setReg x (s.reg x &&& s.reg y)).advance

/-- `XOR Vx, Vy`: writes no flag (`40_alu.md` R107). -/
def execXor (x y : Reg) (s : State) : Result := .next (s.setReg x (s.reg x ^^^ s.reg y)).advance

/-- `ADD Vx, Vy`: VF is the carry (`40_alu.md` R108). -/
def execAddReg (x y : Reg) (s : State) : Result :=
  .next (s.setResultFlag x (s.reg x + s.reg y) (carryFlag (s.reg x) (s.reg y))).advance

/-- `SUB Vx, Vy`: VF is not-borrow (`40_alu.md` R109). -/
def execSub (x y : Reg) (s : State) : Result :=
  .next (s.setResultFlag x (s.reg x - s.reg y) (notBorrowFlag (s.reg x) (s.reg y))).advance

/-- `SUBN Vx, Vy`: the operands of SUB reversed (`40_alu.md` R112). -/
def execSubn (x y : Reg) (s : State) : Result :=
  .next (s.setResultFlag x (s.reg y - s.reg x) (notBorrowFlag (s.reg y) (s.reg x))).advance

/-- `SHR Vx {, Vy}`: shifts Vx in place, y is ignored (`40_alu.md` R110). -/
def execShr (x _y : Reg) (s : State) : Result :=
  .next (s.setResultFlag x (s.reg x >>> 1) (shiftOutRight (s.reg x))).advance

/-- `SHL Vx {, Vy}`: shifts Vx in place, y is ignored (`40_alu.md` R111). -/
def execShl (x _y : Reg) (s : State) : Result :=
  .next (s.setResultFlag x (s.reg x <<< 1) (shiftOutLeft (s.reg x))).advance

end Sys2Proof.Machine
end

