-- ==== Sys2Proof/Machine/Control.lean ====
section
/-! DEFINITION. Jumps, calls and returns (`42_control_transfer.md`). -/

namespace Sys2Proof.Machine

/-- `JP nnn` (`42_control_transfer.md` R130). -/
def execJp (nnn : Word) (s : State) : Result := .next (s.setPc nnn)

/-- `JP V0, nnn`: V0 always, no mask (`42_control_transfer.md` R131). -/
def execJpV0 (nnn : Word) (s : State) : Result := .next (s.setPc (nnn + (s.reg 0).setWidth 16))

/-- `CALL nnn` (`42_control_transfer.md` R132). -/
def execCall (nnn : Word) (s : State) : Result :=
  match s.push (s.pc + 2) with
  | some t => .next (t.setPc nnn)
  | none => .next (s.raiseAt .stackOverflow (.call nnn))

/-- `RET` (`42_control_transfer.md` R133). -/
def execRet (s : State) : Result :=
  match s.pop with
  | some (a, t) => .next (t.setPc a)
  | none => .next (s.raiseAt .stackUnderflow .ret)

end Sys2Proof.Machine
end

