-- ==== Sys2Proof/Machine/Display.lean ====
section
/-! DEFINITION. The display instructions (`41_display.md`). -/

namespace Sys2Proof.Machine

/-- `CLS` (`41_display.md` R120). -/
def execCls (s : State) : Result := .next (s.setFb Display.clear).advance

/-- The pixels (r, c) of a sprite of n rows, row by row, left to right (`41_display.md` R121). -/
def spriteCells (n : Nat) : List (Nat × Nat) :=
  (List.range n).flatMap fun r => (List.range 8).map fun c => (r, c)

/-- One pixel of the sprite at I, onto a display with its `hit` so far: a set bit flips its target and is a hit when the
target was set (`41_display.md` R121). -/
def drawPixel (s : State) (x0 y0 : Nat) (acc : Display × Bool) (cell : Nat × Nat) : Display × Bool :=
  if spriteBit (s.readByte (s.ea cell.1)) cell.2 then
    match pixelTarget s.config.quirkWrapSprites (y0 + cell.1) (x0 + cell.2) with
    | some (row, col) => (acc.1.flip row col, acc.2 || acc.1.pixel row col)
    | none => acc
  else acc

/-- The display and `hit` after drawing the n-row sprite at I with its start at column x0, row y0. -/
def drawSprite (s : State) (x0 y0 n : Nat) : Display × Bool :=
  (spriteCells n).foldl (drawPixel s x0 y0) (s.fb, false)

/-- `DRW Vx, Vy, n` (`41_display.md` R121, R122). -/
def execDrw (x y : Reg) (n : Nat) (s : State) : Result :=
  if n > 0 ∧ ¬ s.reaches (n - 1) then .next (s.raiseAt .outOfBounds (.drw x y n))
  else
    let drawn := drawSprite s (startColumn (s.reg x)) (startRow (s.reg y)) n
    .next ((s.setFb drawn.1).setFlag drawn.2).advance

end Sys2Proof.Machine
end

