-- ==== Sys2Proof/Machine/IndexMemoryTimers.lean ====
section
/-! DEFINITION. Index register, memory transfers and timers (`45_index_memory_timers.md`). -/

namespace Sys2Proof.Machine

/-- `LD I, nnn` (`45_index_memory_timers.md` R160). -/
def execLdI (nnn : Word) (s : State) : Result := .next (s.setI nnn).advance

/-- `ADD I, Vx`: wraps at 16 bits, writes no flag (`45_index_memory_timers.md` R161). -/
def execAddI (x : Reg) (s : State) : Result := .next (s.setI (s.i + (s.reg x).setWidth 16)).advance

/-- `LD F, Vx`: the low 4 bits of Vx select the digit (`45_index_memory_timers.md` R162). -/
def execLdF (x : Reg) (s : State) : Result := .next (s.setI (glyphAddr (lowNibble (s.reg x)))).advance

/-- `LD B, Vx`: hundreds, tens, ones at I, I + 1, I + 2 (`45_index_memory_timers.md` R163). -/
def execLdB (x : Reg) (s : State) : Result :=
  if s.reaches 2 then .next (s.storeBytes (s.ea 0) (decimalDigits (s.reg x))).advance
  else .next (s.raiseAt .outOfBounds (.ldB x))

/-- `LD [I], Vx`: V0 to Vx at I to I + x; I is unchanged (`45_index_memory_timers.md` R164). -/
def execLdMemVx (x : Reg) (s : State) : Result :=
  if s.reaches x then .next (s.storeBytes (s.ea 0) ((regsUpTo x).map s.reg)).advance
  else .next (s.raiseAt .outOfBounds (.ldMemVx x))

/-- Load registers from I plus their number, one after the other. -/
def State.loadRegs (s : State) (rs : List Reg) : State :=
  rs.foldl (fun t r => t.setReg r (t.readByte (t.ea r))) s

/-- `LD Vx, [I]`: V0 to Vx from I to I + x; I is unchanged (`45_index_memory_timers.md` R165). -/
def execLdVxMem (x : Reg) (s : State) : Result :=
  if s.reaches x then .next (s.loadRegs (regsUpTo x)).advance
  else .next (s.raiseAt .outOfBounds (.ldVxMem x))

/-- `LD Vx, DT` (`45_index_memory_timers.md` R166). -/
def execLdVxDt (x : Reg) (s : State) : Result := .next (s.setReg x s.dt).advance

/-- `LD DT, Vx` (`45_index_memory_timers.md` R167). -/
def execLdDtVx (x : Reg) (s : State) : Result := .next (s.setDt (s.reg x)).advance

/-- `LD ST, Vx` (`45_index_memory_timers.md` R168). -/
def execLdStVx (x : Reg) (s : State) : Result := .next (s.setSt (s.reg x)).advance

end Sys2Proof.Machine
end

