-- ==== Sys2Proof/Machine/KeyRandom.lean ====
section
/-! DEFINITION. Key wait and random number (`44_keywait_random.md`). -/

namespace Sys2Proof.Machine

/-- `LD Vx, K`, entering the wait: PC stays, Vx is not written yet, the key levels are not looked at
(`44_keywait_random.md` R150). The press that completes it is `State.keySet` (R151). -/
def execLdVxK (x : Reg) (s : State) : Result := .next (s.beginWait x)

/-- `RND Vx, nn` for the drawn byte `r`. -/
def rndWith (r : Byte) (x : Reg) (nn : Byte) (s : State) : State :=
  (s.countDraw.setReg x (r &&& nn)).advance

/-- `RND Vx, nn`: the byte is the next draw, a free value (`44_keywait_random.md` R152). -/
def execRnd (x : Reg) (nn : Byte) (s : State) : Result := .next (rndWith s.nextDraw x nn s)

end Sys2Proof.Machine
end

