-- ==== Sys2Proof/Machine/Skips.lean ====
section
/-! DEFINITION. The conditional skips (`43_skips.md`). -/

namespace Sys2Proof.Machine

/-- `SE Vx, nn` (`43_skips.md` R140). -/
def execSeImm (x : Reg) (nn : Byte) (s : State) : Result := .next (s.skipIf (s.reg x == nn))

/-- `SNE Vx, nn` (`43_skips.md` R141). -/
def execSneImm (x : Reg) (nn : Byte) (s : State) : Result := .next (s.skipIf (s.reg x != nn))

/-- `SE Vx, Vy` (`43_skips.md` R142). -/
def execSeReg (x y : Reg) (s : State) : Result := .next (s.skipIf (s.reg x == s.reg y))

/-- `SNE Vx, Vy` (`43_skips.md` R143). -/
def execSneReg (x y : Reg) (s : State) : Result := .next (s.skipIf (s.reg x != s.reg y))

/-- `SKP Vx`: the low 4 bits of Vx select the key (`43_skips.md` R144). -/
def execSkp (x : Reg) (s : State) : Result := .next (s.skipIf (s.keyDown (lowNibble (s.reg x))))

/-- `SKNP Vx` (`43_skips.md` R145). -/
def execSknp (x : Reg) (s : State) : Result := .next (s.skipIf (!s.keyDown (lowNibble (s.reg x))))

end Sys2Proof.Machine
end

