-- ==== Sys2Proof/Machine/Events.lean ====
section
/-! DEFINITION. What each event of the interface does (`00_scope.md` R8), and the outputs. -/

namespace Sys2Proof.Machine

/-! ## The `step` event (`60_exceptions.md` R221) -/

/-- Fetch, decode, execute, in status Running. The faults come in the order of `60_exceptions.md` R211. -/
def State.runInstruction (s : State) : Result :=
  match s.fetch with
  | none => .next (s.raise .outOfBounds none)
  | some w =>
    match decode w with
    | some i => exec i s
    | none =>
      if s.config.permissiveUnknownOpcode then .next s.advance
      else .next (s.raise .unknownOpcode (some w))

/-- The `step` event: in AwaitingKey and in Halted it has no effect. The first one closes the load port. -/
def State.cycle (s : State) : Result :=
  match s.status with
  | .running => s.closeLoad.runInstruction
  | .awaitingKey => .next s
  | .halted => .next s

/-! ## Timers and keypad -/

/-- A timer one tick later: floored at 0 (`60_exceptions.md` R224). -/
def countDown (b : Byte) : Byte := if b.toNat > 0 then b - 1 else b

/-- The `tick60` event: no effect in Halted (`60_exceptions.md` R224). -/
def State.tick60 (s : State) : State :=
  match s.status with
  | .halted => s
  | .running => (s.setDt (countDown s.dt)).setSt (countDown s.st)
  | .awaitingKey => (s.setDt (countDown s.dt)).setSt (countDown s.st)

/-- A press completes a waiting `LD Vx, K`: the key number goes to the waiting register, PC moves past the instruction
(`44_keywait_random.md` R151). -/
def State.completeWait (s : State) (k : Key) : State :=
  (s.setReg s.waitReg (BitVec.ofNat 8 k.val)).advance.endWait

/-- The `key_set(k)` event: sets the key; a press transition completes a waiting `LD Vx, K` (`60_exceptions.md` R228). -/
def State.keySet (s : State) (k : Key) : State :=
  if s.status = .awaitingKey ∧ s.keyDown k = false then (s.setKey k true).completeWait k
  else s.setKey k true

/-- The `key_clear(k)` event (`60_exceptions.md` R228). -/
def State.keyClear (s : State) (k : Key) : State := s.setKey k false

/-! ## Reset and program load -/

/-- The configuration a reset puts in force; none for one the spec gives no meaning (`00_scope.md` R7). -/
def sampleConfig (inputs : ConfigInputs) : Option Config :=
  if inputs.quirkResetVfOnShift then none
  else some
    { quirkWrapSprites := inputs.quirkWrapSprites
      permissiveUnknownOpcode := inputs.permissiveUnknownOpcode
      randomSeed := inputs.randomSeed }

/-- The `reset` event: every piece of state to its reset value, the inputs sampled (`70_reset_and_hazards.md` R250). What
is still to come from the host is not CORE's state and stays. -/
def State.resetEvent (s : State) (inputs : ConfigInputs) : Result :=
  match sampleConfig inputs with
  | some config => .next { State.resetWith config with events := s.events }
  | none => .refused .quirkResetVfOnShift

/-- The `load_program(bytes)` event (`70_reset_and_hazards.md` R256, R258). -/
def State.loadProgram (s : State) (bytes : List Byte) : Result :=
  if s.loadOpen then
    if bytes.length > Config.progMax then .fault .programTooLarge
    else .next (s.storeBytes Config.progBase bytes).closeLoad
  else .refused .loadOutsideContract

/-! ## Any event -/

/-- The effect of one event. -/
def State.deliver (s : State) (e : Event) : Result :=
  match e with
  | .step => s.cycle
  | .tick60 => .next s.tick60
  | .keySet k => .next (s.keySet k)
  | .keyClear k => .next (s.keyClear k)
  | .reset inputs => s.resetEvent inputs
  | .loadProgram bytes => s.loadProgram bytes

/-- The event that comes next: the oldest of those still to come, else a `step` (log entry 2). -/
def State.nextEvent (s : State) : Event :=
  match s.events with
  | [] => .step
  | e :: _ => e

/-- The state when its next event is being taken: that event no longer lies ahead. -/
def State.takeEvent (s : State) : State := { s with events := s.events.tail }

/-! ## Outputs (`00_scope.md` R8); `status` and `fault` are fields of the state -/

/-- `display`: the whole of FB between two events (`60_exceptions.md` R230). -/
def State.display (s : State) : Display := s.fb

/-- `sound_active`: ST is not 0 (`60_exceptions.md` R231). -/
def State.soundActive (s : State) : Bool := s.st != 0

end Sys2Proof.Machine
end

