-- ==== Sys2Proof/Machine/Step.lean ====
section
/-! DEFINITION. One step of the machine: the next event of the interface takes effect. -/

namespace Sys2Proof.Machine

/-- One event, whole. With no events laid out ahead it is CORE's `step` (`60_exceptions.md` R221). -/
def step (s : State) : Host.Outcome State Fault Refusal := s.takeEvent.deliver s.nextEvent

/-- `s` with an instruction word stored at PC, big-endian, and ready to execute it in its very next step: status Running,
no event laid out before that step, and the load port closed, since this stands for a load (log entry 14). Nothing is
stored at a PC whose fetch is out of bounds. -/
def State.withFetchWord (s : State) (nbits w : Nat) : State :=
  let word : Word := BitVec.ofNat 16 (w % 2 ^ nbits)
  let ready : State := { s.closeLoad with status := .running, events := [] }
  if s.pc.toNat < Config.lastAddr then ready.storeBytes s.pc.toNat [highByte word, lowByte word] else ready

end Sys2Proof.Machine
end

