-- ==== Sys2Proof/Safety.lean ====
section
/-! DEFINITION. What a safe run is, the invariants of the machine, which states a run reaches, and what a statement means
by a covered pixel or an expected fault. -/

namespace Sys2Proof.Machine

/-! ## Safe runs -/

/-- No error has happened: Halted is an error end, never a successful one (`60_exceptions.md` R217,
`70_reset_and_hazards.md` R259). -/
def State.Safe (s : State) : Prop := s.status ≠ .halted

/-- For `k` events the machine neither stops nor halts. -/
def SafeRun (k : Nat) (s : State) : Prop := ∀ j ≤ k, ∃ t, core.run j s = .next t ∧ State.Safe t

/-! ## Frames -/

/-- Every byte of memory reads in `t` as it reads in `s`. -/
def SameBytes (s t : State) : Prop := ∀ a, t.readByte a = s.readByte a

/-- Every byte of memory but those at `lo` to `hi` reads in `t` as it reads in `s`. -/
def SameBytesOutside (lo hi : Nat) (s t : State) : Prop := ∀ a, a < lo ∨ hi < a → t.readByte a = s.readByte a

/-! ## Invariants -/

/-- The memory keeps its canonical form. -/
def State.MemoryCanonical (s : State) : Prop := s.mem.wf

/-- PC never passes 0x10FE, and a live return address never passes 0x1000 (`10_state.md` R25). A machine that waits for
a key has a PC that a fetch can read. -/
def State.PcBounded (s : State) : Prop :=
  s.pc.toNat ≤ 0x10FE ∧ (s.status = .awaitingKey → s.pc.toNat ≤ 0xFFE) ∧
    ∀ j : Fin 16, j.val < s.sp.val → s.stack[j].toNat ≤ 0x1000

/-- The control state hangs together: the fault record is there exactly in Halted and describes the instruction at PC
(`10_state.md` R33, R35); a machine that waits stands at the `LD Vx, K` that WAITREG names (R34); a machine
whose load port is open is Running. -/
def State.Coherent (s : State) : Prop :=
  (s.status = .halted ↔ s.fault ≠ none) ∧
  (∀ r, s.fault = some r → r.addr = s.pc ∧ r.word = s.fetch ∧
    (s.config.permissiveUnknownOpcode = true → r.kind ≠ .unknownOpcode)) ∧
  (s.status = .awaitingKey → ∃ w, s.fetch = some w ∧ decode w = some (.ldVxK s.waitReg)) ∧
  (s.loadOpen = true → s.status = .running)

/-- Until the first `step` or load, CORE is as the reset left it, but for the keys (`70_reset_and_hazards.md` R255). -/
def State.LoadWindow (s : State) : Prop :=
  s.loadOpen = true → s = { State.resetWith s.config with key := s.key, events := s.events }

/-- All the invariants together. -/
def State.Inv (s : State) : Prop := s.MemoryCanonical ∧ s.PcBounded ∧ s.Coherent ∧ s.LoadWindow

/-- The states of a run: it begins with a reset, whatever events lie ahead, and goes on by whole events
(`70_reset_and_hazards.md` R252, R255). -/
inductive Reachable : State → Prop where
  /-- a reset, with any configuration it can sample and any events to come -/
  | reset (config : Config) (events : List Event) : Reachable { State.resetWith config with events := events }
  /-- one more event -/
  | step {s t : State} : Reachable s → Machine.step s = .next t → Reachable t

/-! ## What the rules say, in the terms of the rules -/

/-- The n-row sprite at I, started at (V[x] mod 64, V[y] mod 32), has a set bit whose target is the display pixel
(row, col) (`41_display.md` R121). -/
def SpriteCovers (s : State) (x y : Reg) (n : Nat) (row : Fin 32) (col : Fin 64) : Prop :=
  ∃ r c, r < n ∧ c < 8 ∧ (s.readByte (s.i.toNat + r)).getLsbD (7 - c) = true ∧
    if s.config.quirkWrapSprites then
      row.val = ((s.reg y).toNat % 32 + r) % 32 ∧ col.val = ((s.reg x).toNat % 64 + c) % 64
    else row.val = (s.reg y).toNat % 32 + r ∧ col.val = (s.reg x).toNat % 64 + c

/-- The one fault the execution of an instruction can raise, when it does (`60_exceptions.md` R201, R203, R204, R211). -/
def executionFault (i : Instr) (s : State) : Option FaultKind :=
  match i with
  | .call _ => if s.sp.val = 16 then some .stackOverflow else none
  | .ret => if s.sp.val = 0 then some .stackUnderflow else none
  | .drw _ _ n => if 0 < n ∧ 0xFFF < s.i.toNat + n - 1 then some .outOfBounds else none
  | .ldB _ => if 0xFFF < s.i.toNat + 2 then some .outOfBounds else none
  | .ldMemVx x | .ldVxMem x => if 0xFFF < s.i.toNat + x.val then some .outOfBounds else none
  | .cls | .jp _ | .jpV0 _ | .seImm _ _ | .sneImm _ _ | .seReg _ _ | .sneReg _ _ | .skp _ | .sknp _ | .ldImm _ _
  | .addImm _ _ | .ldReg _ _ | .or _ _ | .and _ _ | .xor _ _ | .addReg _ _ | .sub _ _ | .subn _ _ | .shr _ _
  | .shl _ _ | .rnd _ _ | .ldI _ | .addI _ | .ldF _ | .ldVxDt _ | .ldVxK _ | .ldDtVx _ | .ldStVx _ => none

/-- The fault a `step` of the Running machine raises, if any: at fetch, at decode, at execution, in this order
(`60_exceptions.md` R201 to R204, R211). -/
def expectedFault (s : State) : Option FaultKind :=
  match s.fetch with
  | none => some .outOfBounds
  | some w =>
    match decode w with
    | none => if s.config.permissiveUnknownOpcode then none else some .unknownOpcode
    | some i => executionFault i s

/-- The general registers an instruction may write when it executes (`10_state.md` R21, R22). `LD Vx, K` writes its
register only when a key press completes it. -/
def mayWrite : Instr → Reg → Bool
  | .ldImm x _, r | .addImm x _, r | .ldReg x _, r | .or x _, r | .and x _, r | .xor x _, r | .rnd x _, r
  | .ldVxDt x, r => r == x
  | .addReg x _, r | .sub x _, r | .subn x _, r | .shr x _, r | .shl x _, r => r == x || r == vf
  | .drw _ _ _, r => r == vf
  | .ldVxMem x, r => r ≤ x
  | .cls, _ | .ret, _ | .jp _, _ | .call _, _ | .seImm _ _, _ | .sneImm _ _, _ | .seReg _ _, _ | .sneReg _ _, _
  | .ldI _, _ | .jpV0 _, _ | .skp _, _ | .sknp _, _ | .ldVxK _, _ | .ldDtVx _, _ | .ldStVx _, _ | .addI _, _
  | .ldF _, _ | .ldB _, _ | .ldMemVx _, _ => false

/-- The six instructions that write a flag to VF (`10_state.md` R22). -/
def writesFlag : Instr → Bool
  | .addReg _ _ | .sub _ _ | .subn _ _ | .shr _ _ | .shl _ _ | .drw _ _ _ => true
  | .ldImm _ _ | .addImm _ _ | .ldReg _ _ | .or _ _ | .and _ _ | .xor _ _ | .rnd _ _ | .ldVxDt _ | .ldVxMem _
  | .cls | .ret | .jp _ | .call _ | .seImm _ _ | .sneImm _ _ | .seReg _ _ | .sneReg _ _ | .ldI _ | .jpV0 _ | .skp _
  | .sknp _ | .ldVxK _ | .ldDtVx _ | .ldStVx _ | .addI _ | .ldF _ | .ldB _ | .ldMemVx _ => false

/-- Where an execution that raises nothing leaves PC, instruction by instruction (`10_state.md` R24). -/
def nextPc (i : Instr) (s : State) : Word :=
  match i with
  | .jp nnn | .call nnn => nnn
  | .jpV0 nnn => nnn + (s.reg 0).setWidth 16
  | .ret => s.stack[s.sp.val - 1]
  | .seImm x nn => if s.reg x = nn then s.pc + 4 else s.pc + 2
  | .sneImm x nn => if s.reg x ≠ nn then s.pc + 4 else s.pc + 2
  | .seReg x y => if s.reg x = s.reg y then s.pc + 4 else s.pc + 2
  | .sneReg x y => if s.reg x ≠ s.reg y then s.pc + 4 else s.pc + 2
  | .skp x => if s.keyDown (lowNibble (s.reg x)) = true then s.pc + 4 else s.pc + 2
  | .sknp x => if s.keyDown (lowNibble (s.reg x)) = false then s.pc + 4 else s.pc + 2
  | .ldVxK _ => s.pc
  | .cls | .ldImm _ _ | .addImm _ _ | .ldReg _ _ | .or _ _ | .and _ _ | .xor _ _ | .addReg _ _ | .sub _ _ | .shr _ _
  | .subn _ _ | .shl _ _ | .ldI _ | .rnd _ _ | .drw _ _ _ | .ldVxDt _ | .ldDtVx _ | .ldStVx _ | .addI _ | .ldF _
  | .ldB _ | .ldMemVx _ | .ldVxMem _ => s.pc + 2

end Sys2Proof.Machine
end

