-- ==== Sys2Proof/Certificates/Slice0/Obligations.lean ====
section
/-! DEFINITION. The statements for the provers, in the order of the spec's files. -/

open Sys2Proof Sys2Proof.Machine

/-! ## Reset and program load -/

/-- `10_state.md` R41, `70_reset_and_hazards.md` R250, `20_memory.md` R57: whatever the state was, a reset that can sample
its inputs gives every piece of state the value of the reset table, the 80 font bytes included, and samples the inputs.
The glyph bytes are the spec's entry G7; KEY, STACK, WAITREG and the record are its decision D20. That the random source is
a count and a function of it (the clause on `nextDraw`) is log entry 5, and that the sampled configuration stands in a field
(the last clause) is log entry 7. -/
def Obligations.ResetGivesEveryPieceItsResetValue : Prop :=
  ∀ (s : State) (inputs : ConfigInputs), inputs.quirkResetVfOnShift = false →
    ∃ t, s.deliver (.reset inputs) = .next t ∧
      (∀ r, t.reg r = 0) ∧ t.i = 0 ∧ t.pc = 0x200 ∧ t.dt = 0 ∧ t.st = 0 ∧ t.sp = 0 ∧
      (∀ j : Fin 16, t.stack[j] = 0) ∧
      (∀ a, a ≤ 0xFFF → a < 0x050 ∨ 0x09F < a → t.readByte a = 0) ∧
      (List.range 80).map (fun k => t.readByte (0x050 + k)) =
        [0xF0, 0x90, 0x90, 0x90, 0xF0, 0x20, 0x60, 0x20, 0x20, 0x70, 0xF0, 0x10, 0xF0, 0x80, 0xF0,
         0xF0, 0x10, 0xF0, 0x10, 0xF0, 0x90, 0x90, 0xF0, 0x10, 0x10, 0xF0, 0x80, 0xF0, 0x10, 0xF0]
        ++ [0xF0, 0x80, 0xF0, 0x90, 0xF0, 0xF0, 0x10, 0x20, 0x40, 0x40, 0xF0, 0x90, 0xF0, 0x90, 0xF0,
         0xF0, 0x90, 0xF0, 0x10, 0xF0, 0xF0, 0x90, 0xF0, 0x90, 0x90, 0xE0, 0x90, 0xE0, 0x90, 0xE0]
        ++ [0xF0, 0x80, 0x80, 0x80, 0xF0, 0xE0, 0x90, 0x90, 0x90, 0xE0, 0xF0, 0x80, 0xF0, 0x80, 0xF0,
         0xF0, 0x80, 0xF0, 0x80, 0x80] ∧
      (∀ row col, t.pixel row col = false) ∧ (∀ k, t.keyDown k = false) ∧
      t.status = .running ∧ t.waitReg = 0 ∧ t.fault = none ∧
      t.nextDraw = Config.rndByte inputs.randomSeed 0 ∧
      t.config = ⟨inputs.quirkWrapSprites, inputs.permissiveUnknownOpcode, inputs.randomSeed⟩

/-- `00_scope.md` R7 (the spec's decision D9): a reset that samples `quirk_reset_vf_on_shift` = true is refused by name.
That the refusal falls on the reset is the model's choice, log entry 4. -/
def Obligations.ResetRefusesTheUndefinedShiftQuirk : Prop :=
  ∀ (s : State) (inputs : ConfigInputs), inputs.quirkResetVfOnShift = true →
    s.deliver (.reset inputs) = .refused .quirkResetVfOnShift

/-- `70_reset_and_hazards.md` R256: in its window, a load of more than 3584 bytes is answered ProgramTooLarge; any other
copies byte k to 0x200 + k and changes nothing else. The port, its being open before and its closing are the model's choice,
log entry 3. -/
def Obligations.LoadProgramCopiesTheBytesOrIsTooLarge : Prop :=
  ∀ (s : State) (bytes : List Byte), s.loadOpen = true →
    (3584 < bytes.length → s.deliver (.loadProgram bytes) = .fault .programTooLarge) ∧
    (bytes.length ≤ 3584 → ∃ t, s.deliver (.loadProgram bytes) = .next t ∧
      (∀ (k : Nat) (h : k < bytes.length), t.readByte (0x200 + k) = bytes[k]) ∧
      (∀ a, a < 0x200 ∨ 0x200 + bytes.length ≤ a → t.readByte a = s.readByte a) ∧
      t = { s with mem := t.mem, loadOpen := false })

/-- `70_reset_and_hazards.md` R258 (the spec's decision D30): the first `step` and the first load end the time for a
load, no event but a reset brings that time back, and a load outside it is refused by name. The field that says so is the
model's, log entry 3. -/
def Obligations.LoadIsRefusedAfterTheFirstStepOrLoad : Prop :=
  (∀ (s : State) (bytes : List Byte), s.loadOpen = false →
    s.deliver (.loadProgram bytes) = .refused .loadOutsideContract) ∧
  (∀ s t : State, s.status = .running → s.deliver .step = .next t → t.loadOpen = false) ∧
  (∀ (s t : State) (bytes : List Byte), s.deliver (.loadProgram bytes) = .next t → t.loadOpen = false) ∧
  (∀ (s t : State) (e : Event), (∀ inputs, e ≠ .reset inputs) → s.loadOpen = false → s.deliver e = .next t →
    t.loadOpen = false)

/-! ## Encoding -/

/-- `30_encoding.md` R74, R75: words written out from the table decode to the instructions they stand for, at least one of
each family 0 to F, and illegal words of `95_test_vectors.md` (E1 to E23) to none. -/
def Obligations.WordsOfTheTableDecodeAsTheTableSays : Prop :=
  decode 0b0000000011100000 = some .cls ∧ decode 0b0000000011101110 = some .ret ∧
  decode 0b0001111111111111 = some (.jp 0xFFF) ∧ decode 0b0010001100000000 = some (.call 0x300) ∧
  decode 0b0011000100010000 = some (.seImm 1 0x10) ∧ decode 0b0100111011110000 = some (.sneImm 0xE 0xF0) ∧
  decode 0b0111001100000001 = some (.addImm 3 1) ∧ decode 0b1001110101000000 = some (.sneReg 0xD 4) ∧
  decode 0b1011010000110010 = some (.jpV0 0x432) ∧
  decode 0b0101000100100000 = some (.seReg 1 2) ∧ decode 0b0110101000101111 = some (.ldImm 0xA 0x2F) ∧
  decode 0b1000000100100111 = some (.subn 1 2) ∧ decode 0b1000000100101110 = some (.shl 1 2) ∧
  decode 0b1010101111001101 = some (.ldI 0xBCD) ∧ decode 0b1101000100100000 = some (.drw 1 2 0) ∧
  decode 0b1110000110011110 = some (.skp 1) ∧ decode 0b1100001000001111 = some (.rnd 2 0x0F) ∧
  decode 0b1111111101100101 = some (.ldVxMem 0xF) ∧ decode 0b1111000100001010 = some (.ldVxK 1) ∧
  decode 0x0000 = none ∧ decode 0x00FF = none ∧ decode 0x0123 = none ∧ decode 0x5121 = none ∧ decode 0x8128 = none ∧
  decode 0x912F = none ∧ decode 0xE19D = none ∧ decode 0xF175 = none

/-- Decoding the word of a well-formed instruction gives the instruction back, every operand with it. -/
def Obligations.DecodeInvertsEncode : Prop := ∀ i : Instr, i.WellFormed → decode (encode i) = some i

/-- A word that decodes is the word of the well-formed instruction it decodes to: no bit of it is dropped. -/
def Obligations.EncodeInvertsDecode : Prop :=
  ∀ (w : Word) (i : Instr), decode w = some i → i.WellFormed ∧ encode i = w

/-- `30_encoding.md` R74: the table has 34 rows, no word selects two of them, a word that selects none is illegal, and a
word that decodes selects the row of its instruction. -/
def Obligations.TableRowsAreDisjointAndDecide : Prop :=
  opcodeTable.length = 34 ∧
  opcodeTable.Pairwise (fun p q => ∀ w, ¬ (p.selects w = true ∧ q.selects w = true)) ∧
  (∀ w, decode w = none ↔ ∀ row ∈ opcodeTable, row.selects w = false) ∧
  (∀ w i, decode w = some i → i.row ∈ opcodeTable ∧ i.row.selects w = true)

/-- `30_encoding.md` R76, its table: the words that decode to nothing, family by family. -/
def Obligations.IllegalWordsAreExactlyThoseListed : Prop :=
  ∀ w : Word, decode w = none ↔
    (w.toNat / 0x1000 = 0 ∧ w ≠ 0x00E0 ∧ w ≠ 0x00EE) ∨
    (w.toNat / 0x1000 = 5 ∧ w.toNat % 0x10 ≠ 0) ∨
    (w.toNat / 0x1000 = 8 ∧ w.toNat % 0x10 ∈ [0x8, 0x9, 0xA, 0xB, 0xC, 0xD, 0xF]) ∨
    (w.toNat / 0x1000 = 9 ∧ w.toNat % 0x10 ≠ 0) ∨
    (w.toNat / 0x1000 = 0xE ∧ w.toNat % 0x100 ∉ [0x9E, 0xA1]) ∨
    (w.toNat / 0x1000 = 0xF ∧
      w.toNat % 0x100 ∉ [0x07, 0x0A, 0x15, 0x18, 0x1E, 0x29, 0x33, 0x55, 0x65])

/-! ## The step -/

/-- `20_memory.md` R50: a fetch succeeds exactly at PC at most 0xFFE and takes the byte at PC as the high byte; otherwise
it raises OutOfBounds and no instruction executes. -/
def Obligations.FetchIsBigEndianAndBounded : Prop :=
  ∀ s : State,
    (s.pc.toNat ≤ 0xFFE → ∃ w, s.fetch = some w ∧
      w.toNat = 256 * (s.readByte s.pc.toNat).toNat + (s.readByte (s.pc.toNat + 1)).toNat) ∧
    (0xFFE < s.pc.toNat → s.fetch = none ∧
      s.runInstruction = .next { s with status := .halted, fault := some ⟨.outOfBounds, s.pc, none⟩ })

/-- `60_exceptions.md` R221: a `step` event in status Running runs the instruction fetched at PC; the illegal word is a
no-operation or raises; in the other statuses the event has no effect. The clauses on `loadOpen` are the model's choice, log
entry 3. -/
def Obligations.StepEventFetchesDecodesAndExecutes : Prop :=
  ∀ s : State,
    (s.status ≠ .running → s.deliver .step = .next s) ∧
    (s.status = .running → s.fetch = none →
      s.deliver .step =
        .next { s with status := .halted, fault := some ⟨.outOfBounds, s.pc, none⟩, loadOpen := false }) ∧
    (∀ w, s.status = .running → s.fetch = some w → decode w = none → s.config.permissiveUnknownOpcode = true →
      s.deliver .step = .next { s with pc := s.pc + 2, loadOpen := false }) ∧
    (∀ w, s.status = .running → s.fetch = some w → decode w = none → s.config.permissiveUnknownOpcode = false →
      s.deliver .step =
        .next { s with status := .halted, fault := some ⟨.unknownOpcode, s.pc, some w⟩, loadOpen := false }) ∧
    (∀ w i, s.status = .running → s.fetch = some w → decode w = some i →
      s.deliver .step = exec i { s with loadOpen := false })

/-- A STEP RUNS THE DECODED INSTRUCTION: when the next event is CORE's `step`, the machine is Running and the bytes at PC
decode to i, the machine's step is exec of i. What stands around exec are the model's own fields: the event is taken off
the list and the load port closes (log entries 2 and 3). -/
def Obligations.StepRunsTheDecodedInstruction : Prop :=
  ∀ (s : State) (w : Word) (i : Instr), s.nextEvent = .step → s.status = .running → s.fetch = some w →
    decode w = some i → step s = exec i { s with events := s.events.tail, loadOpen := false }

/-- The machine's step takes the oldest event laid out ahead, and a `step` when none is (log entry 2). -/
def Obligations.StepTakesTheOldestEvent : Prop :=
  (∀ (s : State) (e : Event) (rest : List Event), s.events = e :: rest →
    step s = { s with events := rest }.deliver e) ∧
  (∀ s : State, s.events = [] → step s = s.deliver .step)

/-- No instruction stops the model: every instruction answers a next state in every state, errors included, because an
error is the Halted state (`60_exceptions.md` R213, R220; log entry 1). -/
def Obligations.EveryInstructionAnswersANextState : Prop := ∀ (i : Instr) (s : State), ∃ t, exec i s = .next t

/-! ## Faults -/

/-- `60_exceptions.md` R213, R214: a step that ends in Halted has written the record (a kind, pc, the fetched word or none
if the fetch raised) and the status, and nothing else. The clause on `loadOpen` is the model's choice, log entry 3. -/
def Obligations.AFaultRecordsAndChangesNothingElse : Prop :=
  ∀ s t : State, s.status = .running → s.deliver .step = .next t → t.status = .halted →
    ∃ kind, t = { s with status := .halted, fault := some ⟨kind, s.pc, s.fetch⟩, loadOpen := false }

/-- `60_exceptions.md` R201 to R204: a step of the Running machine halts exactly when one of the listed causes holds, and
then records that cause's kind, pc, and the fetched word. -/
def Obligations.AStepHaltsExactlyOnTheListedCauses : Prop :=
  ∀ s t : State, s.status = .running → s.deliver .step = .next t →
    (t.status = .halted ↔ expectedFault s ≠ none) ∧
    ∀ kind, expectedFault s = some kind → t.fault = some ⟨kind, s.pc, s.fetch⟩

/-- `60_exceptions.md` R216: in Halted a `step` and a `tick60` have no effect, key events move KEY and complete nothing, and
the outputs show the frozen state. -/
def Obligations.HaltedIsFrozenButForTheKeys : Prop :=
  ∀ (s : State), s.status = .halted →
    s.deliver .step = .next s ∧ s.deliver .tick60 = .next s ∧
    ∀ k, ∃ t u, s.deliver (.keySet k) = .next t ∧ s.deliver (.keyClear k) = .next u ∧
      t = { s with key := t.key } ∧ t.keyDown k = true ∧ (∀ j, j ≠ k → t.keyDown j = s.keyDown j) ∧
      u = { s with key := u.key } ∧ u.keyDown k = false ∧ (∀ j, j ≠ k → u.keyDown j = s.keyDown j) ∧
      t.display = s.display ∧ u.display = s.display ∧ t.soundActive = s.soundActive ∧ u.soundActive = s.soundActive

/-- `10_state.md` R33, its transitions: Running to AwaitingKey by a step on `LD Vx, K`; AwaitingKey to Running by the press
of a key that was up; Running to Halted by a step that raises; any status to Running by `reset`; no others. -/
def Obligations.StatusChangesOnlyByTheListedTransitions : Prop :=
  ∀ (s t : State) (e : Event), s.deliver e = .next t → t.status ≠ s.status →
    (s.status = .running ∧ t.status = .awaitingKey ∧ e = .step ∧
      ∃ w x, s.fetch = some w ∧ decode w = some (.ldVxK x)) ∨
    (s.status = .awaitingKey ∧ t.status = .running ∧ ∃ k, e = .keySet k ∧ s.keyDown k = false) ∨
    (s.status = .running ∧ t.status = .halted ∧ e = .step ∧ expectedFault s ≠ none) ∨
    (t.status = .running ∧ ∃ inputs, e = .reset inputs)

/-! ## Loads, arithmetic, logic and shifts -/

/-- `40_alu.md` R102, R104 (R104 is the spec's entry G5): the destination gets nn or Vy, PC advances by 2, nothing else
changes. -/
def Obligations.LoadsWriteVxAlone : Prop :=
  ∀ (s : State) (x y : Reg) (nn : Byte),
    (∃ t, exec (.ldImm x nn) s = .next t ∧ t.reg x = nn ∧ (∀ r, r ≠ x → t.reg r = s.reg r) ∧
      t = { s with v := t.v, pc := s.pc + 2 } ∧ SameBytes s t) ∧
    (∃ t, exec (.ldReg x y) s = .next t ∧ t.reg x = s.reg y ∧ (∀ r, r ≠ x → t.reg r = s.reg r) ∧
      t = { s with v := t.v, pc := s.pc + 2 } ∧ SameBytes s t)

/-- `40_alu.md` R103 (no carry to VF is the spec's decision D12): the sum modulo 256 goes to Vx; every other register, VF
among them, is unchanged. -/
def Obligations.AddImmediateWrapsAndKeepsTheFlag : Prop :=
  ∀ (s : State) (x : Reg) (nn : Byte), ∃ t, exec (.addImm x nn) s = .next t ∧
    (t.reg x).toNat = ((s.reg x).toNat + nn.toNat) % 256 ∧ (∀ r, r ≠ x → t.reg r = s.reg r) ∧
    t = { s with v := t.v, pc := s.pc + 2 } ∧ SameBytes s t

/-- `40_alu.md` R105, R106, R107 (VF unchanged is the spec's decision D11): bit by bit, Vx becomes the or, the and, the
exclusive or of Vx and Vy; every other register is unchanged. -/
def Obligations.LogicWorksBitByBitAndKeepsTheFlag : Prop :=
  ∀ (s : State) (x y : Reg),
    (∃ t, exec (.or x y) s = .next t ∧
      (∀ b < 8, (t.reg x).getLsbD b = ((s.reg x).getLsbD b || (s.reg y).getLsbD b)) ∧
      (∀ r, r ≠ x → t.reg r = s.reg r) ∧ t = { s with v := t.v, pc := s.pc + 2 } ∧ SameBytes s t) ∧
    (∃ t, exec (.and x y) s = .next t ∧
      (∀ b < 8, (t.reg x).getLsbD b = ((s.reg x).getLsbD b && (s.reg y).getLsbD b)) ∧
      (∀ r, r ≠ x → t.reg r = s.reg r) ∧ t = { s with v := t.v, pc := s.pc + 2 } ∧ SameBytes s t) ∧
    (∃ t, exec (.xor x y) s = .next t ∧
      (∀ b < 8, (t.reg x).getLsbD b = ((s.reg x).getLsbD b ^^ (s.reg y).getLsbD b)) ∧
      (∀ r, r ≠ x → t.reg r = s.reg r) ∧ t = { s with v := t.v, pc := s.pc + 2 } ∧ SameBytes s t)

/-- `40_alu.md` R108: VF ends as the carry, for x = 15 too; Vx, when it is not VF, is the sum modulo 256. -/
def Obligations.AddRegistersSetsCarry : Prop :=
  ∀ (s : State) (x y : Reg), ∃ t, exec (.addReg x y) s = .next t ∧
    t.reg vf = (if (s.reg x).toNat + (s.reg y).toNat > 255 then 1 else 0) ∧
    (x ≠ vf → (t.reg x).toNat = ((s.reg x).toNat + (s.reg y).toNat) % 256) ∧
    (∀ r, r ≠ x → r ≠ vf → t.reg r = s.reg r) ∧ t = { s with v := t.v, pc := s.pc + 2 } ∧ SameBytes s t

/-- `40_alu.md` R109: VF ends as not-borrow, equality giving 1; Vx, when it is not VF, is Vx - Vy modulo 256. -/
def Obligations.SubtractSetsNotBorrow : Prop :=
  ∀ (s : State) (x y : Reg), ∃ t, exec (.sub x y) s = .next t ∧
    t.reg vf = (if (s.reg x).toNat ≥ (s.reg y).toNat then 1 else 0) ∧
    (x ≠ vf → (t.reg x).toNat = ((s.reg x).toNat + 256 - (s.reg y).toNat) % 256) ∧
    (∀ r, r ≠ x → r ≠ vf → t.reg r = s.reg r) ∧ t = { s with v := t.v, pc := s.pc + 2 } ∧ SameBytes s t

/-- `40_alu.md` R112 (the direction is the spec's entry G11): VF ends as not-borrow of Vy - Vx; Vx, when it is not VF, is
Vy - Vx modulo 256. -/
def Obligations.ReverseSubtractSetsNotBorrow : Prop :=
  ∀ (s : State) (x y : Reg), ∃ t, exec (.subn x y) s = .next t ∧
    t.reg vf = (if (s.reg y).toNat ≥ (s.reg x).toNat then 1 else 0) ∧
    (x ≠ vf → (t.reg x).toNat = ((s.reg y).toNat + 256 - (s.reg x).toNat) % 256) ∧
    (∀ r, r ≠ x → r ≠ vf → t.reg r = s.reg r) ∧ t = { s with v := t.v, pc := s.pc + 2 } ∧ SameBytes s t

/-- `40_alu.md` R110, R111 (shifting Vx itself is the spec's decision D8): the shift distance is 1, VF ends as the bit
shifted out, and y is ignored. -/
def Obligations.ShiftsPutTheLostBitInVf : Prop :=
  ∀ (s : State) (x y : Reg),
    (∃ t, exec (.shr x y) s = .next t ∧ (t.reg vf).toNat = (s.reg x).toNat % 2 ∧
      (x ≠ vf → (t.reg x).toNat = (s.reg x).toNat / 2) ∧ (∀ r, r ≠ x → r ≠ vf → t.reg r = s.reg r) ∧
      t = { s with v := t.v, pc := s.pc + 2 } ∧ SameBytes s t) ∧
    (∃ t, exec (.shl x y) s = .next t ∧ (t.reg vf).toNat = (s.reg x).toNat / 128 ∧
      (x ≠ vf → (t.reg x).toNat = 2 * (s.reg x).toNat % 256) ∧ (∀ r, r ≠ x → r ≠ vf → t.reg r = s.reg r) ∧
      t = { s with v := t.v, pc := s.pc + 2 } ∧ SameBytes s t)

/-- `10_state.md` R22: an execution of one of the six flag instructions that raises nothing leaves 0 or 1 in VF, whatever
VF held, and no other instruction changes VF but as an ordinary destination register. -/
def Obligations.VfIsAFlagForExactlySixInstructions : Prop :=
  ∀ (i : Instr) (s t : State), exec i s = .next t → s.status = .running →
    (writesFlag i = true → t.status = .running → t.reg vf = 0 ∨ t.reg vf = 1) ∧
    (writesFlag i = false → mayWrite i vf = false → t.reg vf = s.reg vf)

/-- `10_state.md` R21: an execution changes no general register but those the rule lists for the instruction. -/
def Obligations.RegistersChangeOnlyAsDestinations : Prop :=
  ∀ (i : Instr) (s t : State) (r : Reg), exec i s = .next t → mayWrite i r = false → t.reg r = s.reg r

/-! ## Display -/

/-- `41_display.md` R120: every pixel becomes 0, PC advances by 2, nothing else changes. -/
def Obligations.ClearScreenClearsEveryPixel : Prop :=
  ∀ s : State, ∃ t, exec .cls s = .next t ∧ (∀ row col, t.pixel row col = false) ∧
    t = { s with fb := t.fb, pc := s.pc + 2 } ∧ SameBytes s t

/-- `41_display.md` R121 (geometry: the spec's entry G8; start coordinates and axes: its decision D10): DRW inverts exactly
the pixels its sprite covers, wrapped or clipped, and VF says whether one of them was set; a sprite whose last byte lies
above 0xFFF raises OutOfBounds and draws nothing. -/
def Obligations.DrawInvertsTheCoveredPixelsAndReportsErasure : Prop :=
  ∀ (s : State) (x y : Reg) (n : Nat), n < 16 →
    (0 < n → 0xFFF < s.i.toNat + n - 1 →
      exec (.drw x y n) s =
        .next { s with status := .halted, fault := some ⟨.outOfBounds, s.pc, some (encode (.drw x y n))⟩ }) ∧
    ((n = 0 ∨ s.i.toNat + n - 1 ≤ 0xFFF) → ∃ t, exec (.drw x y n) s = .next t ∧
      (∀ row col, SpriteCovers s x y n row col → t.pixel row col = !s.pixel row col) ∧
      (∀ row col, ¬ SpriteCovers s x y n row col → t.pixel row col = s.pixel row col) ∧
      ((∃ row col, SpriteCovers s x y n row col ∧ s.pixel row col = true) → t.reg vf = 1) ∧
      ((¬ ∃ row col, SpriteCovers s x y n row col ∧ s.pixel row col = true) → t.reg vf = 0) ∧
      (∀ r, r ≠ vf → t.reg r = s.reg r) ∧
      t = { s with v := t.v, fb := t.fb, pc := s.pc + 2 } ∧ SameBytes s t)

/-- `41_display.md` R123: the same DRW a second time (same V[x], V[y], I, n, sprite bytes and quirk setting) restores the
display, wrapped or clipped, and its VF is 1 exactly when the first turned a pixel from 0 to 1. The clause
on VF is an inference the spec marks as its own. -/
def Obligations.DrawingTwiceRestoresTheDisplay : Prop :=
  ∀ (s t s' u : State) (x y : Reg) (n : Nat), n < 16 → (n = 0 ∨ s.i.toNat + n - 1 ≤ 0xFFF) →
    exec (.drw x y n) s = .next t →
    s'.fb = t.fb → s'.reg x = s.reg x → s'.reg y = s.reg y → s'.i = s.i →
    (∀ r < n, s'.readByte (s.i.toNat + r) = s.readByte (s.i.toNat + r)) →
    s'.config.quirkWrapSprites = s.config.quirkWrapSprites →
    exec (.drw x y n) s' = .next u →
    u.fb = s.fb ∧
    ((∃ row col, s.pixel row col = false ∧ t.pixel row col = true) → u.reg vf = 1) ∧
    ((¬ ∃ row col, s.pixel row col = false ∧ t.pixel row col = true) → u.reg vf = 0)

/-! ## Jumps, calls and returns -/

/-- `42_control_transfer.md` R130, R131 (the second form is the spec's entry G12 and decision D28): PC becomes nnn, or
nnn + V0 without wrap or mask; nothing else changes. -/
def Obligations.JumpsSetPcAlone : Prop :=
  ∀ (s : State) (nnn : Word),
    (∃ t, exec (.jp nnn) s = .next t ∧ t.pc = nnn ∧ t = { s with pc := t.pc } ∧ SameBytes s t) ∧
    (∃ t, exec (.jpV0 nnn) s = .next t ∧
      (nnn.toNat ≤ 0xFFF → t.pc.toNat = nnn.toNat + (s.reg 0).toNat) ∧ t = { s with pc := t.pc } ∧ SameBytes s t)

/-- `42_control_transfer.md` R132: with 16 entries in use CALL raises StackOverflow; otherwise it pushes pc + 2 and goes to
nnn, and every other stack entry stays. -/
def Obligations.CallPushesTheNextAddressOrOverflows : Prop :=
  ∀ (s : State) (nnn : Word),
    (s.sp.val = 16 → exec (.call nnn) s =
      .next { s with status := .halted, fault := some ⟨.stackOverflow, s.pc, some (encode (.call nnn))⟩ }) ∧
    (s.sp.val < 16 → ∃ t, exec (.call nnn) s = .next t ∧ t.pc = nnn ∧ t.sp.val = s.sp.val + 1 ∧
      (∀ j : Fin 16, j.val = s.sp.val → t.stack[j] = s.pc + 2) ∧
      (∀ j : Fin 16, j.val ≠ s.sp.val → t.stack[j] = s.stack[j]) ∧
      t = { s with stack := t.stack, sp := t.sp, pc := t.pc } ∧ SameBytes s t)

/-- `42_control_transfer.md` R133: on an empty stack RET raises StackUnderflow; otherwise it pops, PC is the popped entry,
and the entry keeps its value. -/
def Obligations.ReturnPopsTheTopEntryOrUnderflows : Prop :=
  ∀ s : State,
    (s.sp.val = 0 → exec .ret s =
      .next { s with status := .halted, fault := some ⟨.stackUnderflow, s.pc, some 0x00EE⟩ }) ∧
    (0 < s.sp.val → ∃ t, exec .ret s = .next t ∧ t.sp.val = s.sp.val - 1 ∧
      (∀ j : Fin 16, j.val = s.sp.val - 1 → t.pc = s.stack[j]) ∧
      t = { s with sp := t.sp, pc := t.pc } ∧ SameBytes s t)

/-- `42_control_transfer.md` R134 (a): after a CALL that succeeds, a RET executed with the SP the CALL left and the live
entries it left goes to the instruction after the CALL, at every depth 1 to 16. -/
def Obligations.ReturnGoesBackBehindItsCall : Prop :=
  ∀ (s t u : State) (nnn : Word), s.sp.val < 16 → exec (.call nnn) s = .next t →
    u.sp = t.sp → (∀ j : Fin 16, j.val < t.sp.val → u.stack[j] = t.stack[j]) →
    ∃ w, exec .ret u = .next w ∧ w.pc = s.pc + 2 ∧ w.sp = s.sp

/-! ## Skips -/

/-- `43_skips.md` R140 to R143 (the conditions are the spec's entries G10 and G15): PC becomes pc + 4 when the comparison
holds and pc + 2 when it does not; nothing else changes. -/
def Obligations.ComparisonSkipsMovePcAlone : Prop :=
  ∀ (s : State) (x y : Reg) (nn : Byte),
    exec (.seImm x nn) s = .next { s with pc := if s.reg x = nn then s.pc + 4 else s.pc + 2 } ∧
    exec (.sneImm x nn) s = .next { s with pc := if s.reg x ≠ nn then s.pc + 4 else s.pc + 2 } ∧
    exec (.seReg x y) s = .next { s with pc := if s.reg x = s.reg y then s.pc + 4 else s.pc + 2 } ∧
    exec (.sneReg x y) s = .next { s with pc := if s.reg x ≠ s.reg y then s.pc + 4 else s.pc + 2 }

/-- `43_skips.md` R144, R145 (the low 4 bits are the spec's decision D14): the key that V[x] mod 16 selects decides; PC
moves by 4 or 2; nothing else changes, KEY included. -/
def Obligations.KeySkipsTestTheSelectedKey : Prop :=
  ∀ (s : State) (x : Reg) (k : Key), k.val = (s.reg x).toNat % 16 →
    exec (.skp x) s = .next { s with pc := if s.keyDown k = true then s.pc + 4 else s.pc + 2 } ∧
    exec (.sknp x) s = .next { s with pc := if s.keyDown k = false then s.pc + 4 else s.pc + 2 }

/-- `43_skips.md` R146 (d), an inference the spec marks as its own: in any state exactly one of SE and SNE with the same
operands skips, and exactly one of SKP and SKNP. -/
def Obligations.PairedSkipsAreComplements : Prop :=
  ∀ (i j : Instr) (s t u : State),
    ((∃ x nn, i = .seImm x nn ∧ j = .sneImm x nn) ∨ (∃ x y, i = .seReg x y ∧ j = .sneReg x y) ∨
      (∃ x, i = .skp x ∧ j = .sknp x)) →
    exec i s = .next t → exec j s = .next u →
    (t.pc = s.pc + 4 ∧ u.pc = s.pc + 2) ∨ (t.pc = s.pc + 2 ∧ u.pc = s.pc + 4)

/-! ## Key wait and random number -/

/-- `44_keywait_random.md` R150 (what a held key does is the spec's decision D16): LD Vx, K sets WAITREG and the status and
nothing else, whatever the levels of KEY. -/
def Obligations.KeyWaitSuspendsAtTheInstruction : Prop :=
  ∀ (s : State) (x : Reg), exec (.ldVxK x) s = .next { s with waitReg := x, status := .awaitingKey } ∧
    ∀ t : State, t.status = .awaitingKey → t.deliver .step = .next t

/-- `60_exceptions.md` R228, `44_keywait_random.md` R151: a key event sets or clears its key in every status; the press of
a key that was up, in AwaitingKey, also puts its number in V[WAITREG], moves PC past the instruction and resumes. -/
def Obligations.KeyEventsMoveKeysAndAPressEndsTheWait : Prop :=
  ∀ (s : State) (k : Key),
    (s.status = .awaitingKey → s.keyDown k = false → ∃ t, s.deliver (.keySet k) = .next t ∧
      (t.reg s.waitReg).toNat = k.val ∧ (∀ r, r ≠ s.waitReg → t.reg r = s.reg r) ∧
      t.keyDown k = true ∧ (∀ j, j ≠ k → t.keyDown j = s.keyDown j) ∧
      t = { s with v := t.v, key := t.key, pc := s.pc + 2, status := .running }) ∧
    ((s.status ≠ .awaitingKey ∨ s.keyDown k = true) → ∃ t, s.deliver (.keySet k) = .next t ∧
      t.keyDown k = true ∧ (∀ j, j ≠ k → t.keyDown j = s.keyDown j) ∧ t = { s with key := t.key }) ∧
    (∃ t, s.deliver (.keyClear k) = .next t ∧
      t.keyDown k = false ∧ (∀ j, j ≠ k → t.keyDown j = s.keyDown j) ∧ t = { s with key := t.key })

/-- `44_keywait_random.md` R152 (the spec's decision D22): Vx gets the drawn byte and nn, and the draw is consumed. The
byte is a free value that depends on nothing but the seed and how many draws came before it, so equal seeds and equal runs
draw alike; the statement holds for every value of it. That the source is a count and a function without a body is the
model's form of it, log entry 5. -/
def Obligations.RandomMasksTheNextDraw : Prop :=
  ∀ (s : State) (x : Reg) (nn : Byte), ∃ t, exec (.rnd x nn) s = .next t ∧
    t.reg x = Config.rndByte s.config.randomSeed s.draws &&& nn ∧ (∀ r, r ≠ x → t.reg r = s.reg r) ∧
    t = { s with v := t.v, pc := s.pc + 2, draws := s.draws + 1 } ∧ SameBytes s t

/-- `10_state.md` R36, `60_exceptions.md` R221: only RND sees the random source: any other instruction does the same
whatever the seed and the number of draws, and leaves both alone. -/
def Obligations.TheRandomSourceReachesOnlyRnd : Prop :=
  ∀ (i : Instr) (s t : State) (seed draws : Nat), (∀ x nn, i ≠ .rnd x nn) → exec i s = .next t →
    exec i { s with draws := draws, config := { s.config with randomSeed := seed } } =
      .next { t with draws := draws, config := { t.config with randomSeed := seed } } ∧
    t.draws = s.draws ∧ t.config = s.config

/-- `10_state.md` R39, `44_keywait_random.md` R150: only SKP and SKNP read the levels of KEY, and no instruction changes
them. -/
def Obligations.KeyLevelsReachOnlyTheKeySkips : Prop :=
  ∀ (i : Instr) (s t : State) (key : Vector Bool 16), exec i s = .next t →
    t.key = s.key ∧
    ((∀ x, i ≠ .skp x ∧ i ≠ .sknp x) → exec i { s with key := key } = .next { t with key := key })

/-! ## Index register, memory transfers, timers -/

/-- `45_index_memory_timers.md` R160, R161, R162 (the spec's decisions D12, D14, D5): I becomes nnn, or I + Vx modulo 65536,
or 0x050 + 5 times the low nibble of Vx; PC advances by 2; nothing else changes, VF included. -/
def Obligations.IndexInstructionsWriteIAlone : Prop :=
  ∀ (s : State) (x : Reg) (nnn : Word),
    (∃ t, exec (.ldI nnn) s = .next t ∧ t.i = nnn ∧ t = { s with i := t.i, pc := s.pc + 2 } ∧ SameBytes s t) ∧
    (∃ t, exec (.addI x) s = .next t ∧ t.i.toNat = (s.i.toNat + (s.reg x).toNat) % 65536 ∧
      t = { s with i := t.i, pc := s.pc + 2 } ∧ SameBytes s t) ∧
    (∃ t, exec (.ldF x) s = .next t ∧ t.i.toNat = 0x050 + 5 * ((s.reg x).toNat % 16) ∧
      t = { s with i := t.i, pc := s.pc + 2 } ∧ SameBytes s t)

/-- `45_index_memory_timers.md` R163: hundreds, tens and ones of Vx go to I, I + 1, I + 2, and no other byte changes; when
I + 2 lies above 0xFFF the instruction raises OutOfBounds and writes nothing. -/
def Obligations.DecimalStoreWritesThreeDigits : Prop :=
  ∀ (s : State) (x : Reg),
    (0xFFF < s.ea 2 → exec (.ldB x) s =
      .next { s with status := .halted, fault := some ⟨.outOfBounds, s.pc, some (encode (.ldB x))⟩ }) ∧
    (s.ea 2 ≤ 0xFFF → ∃ t, exec (.ldB x) s = .next t ∧
      (t.readByte (s.ea 0)).toNat = (s.reg x).toNat / 100 ∧
      (t.readByte (s.ea 1)).toNat = (s.reg x).toNat / 10 % 10 ∧
      (t.readByte (s.ea 2)).toNat = (s.reg x).toNat % 10 ∧
      SameBytesOutside (s.ea 0) (s.ea 2) s t ∧ t = { s with mem := t.mem, pc := s.pc + 2 })

/-- `45_index_memory_timers.md` R164 (I unchanged is the spec's decision D13): V0 to Vx go to I to I + x, and no other byte
changes; when I + x lies above 0xFFF the instruction raises OutOfBounds and writes nothing. -/
def Obligations.RegisterStoreWritesV0ToVx : Prop :=
  ∀ (s : State) (x : Reg),
    (0xFFF < s.ea x → exec (.ldMemVx x) s =
      .next { s with status := .halted, fault := some ⟨.outOfBounds, s.pc, some (encode (.ldMemVx x))⟩ }) ∧
    (s.ea x ≤ 0xFFF → ∃ t, exec (.ldMemVx x) s = .next t ∧
      (∀ r, r ≤ x → t.readByte (s.ea r) = s.reg r) ∧
      SameBytesOutside (s.ea 0) (s.ea x) s t ∧ t = { s with mem := t.mem, pc := s.pc + 2 })

/-- `45_index_memory_timers.md` R165 (I unchanged is the spec's decision D13): V0 to Vx come from I to I + x, and no other
register changes; when I + x lies above 0xFFF the instruction raises OutOfBounds and writes nothing. -/
def Obligations.RegisterLoadReadsV0ToVx : Prop :=
  ∀ (s : State) (x : Reg),
    (0xFFF < s.ea x → exec (.ldVxMem x) s =
      .next { s with status := .halted, fault := some ⟨.outOfBounds, s.pc, some (encode (.ldVxMem x))⟩ }) ∧
    (s.ea x ≤ 0xFFF → ∃ t, exec (.ldVxMem x) s = .next t ∧
      (∀ r, r ≤ x → t.reg r = s.readByte (s.ea r)) ∧ (∀ r, x < r → t.reg r = s.reg r) ∧
      t = { s with v := t.v, pc := s.pc + 2 } ∧ SameBytes s t)

/-- `20_memory.md` R62, an inference the spec marks as its own: two registers stored side by side are, from then on, the
word a fetch at their address takes. -/
def Obligations.AStoreIsSeenByTheNextFetch : Prop :=
  ∀ (s t : State) (x r : Reg) (a : Word), s.ea x ≤ 0xFFF → exec (.ldMemVx x) s = .next t → r < x →
    a.toNat = s.ea r → ({ t with pc := a } : State).fetch = some (wordOfBytes (s.reg r) (s.reg (r + 1)))

/-- `45_index_memory_timers.md` R166, R167, R168 (the spec's entry G4): Vx gets DT, DT gets Vx, ST gets Vx, sound_active
following at once; PC advances by 2; nothing else changes. No instruction reads ST back: with another value in it, any
instruction but LD ST does the same and leaves that value. -/
def Obligations.TimerInstructionsMoveOneByte : Prop :=
  (∀ (i : Instr) (s t : State) (b : Byte), (∀ x, i ≠ .ldStVx x) → exec i s = .next t →
    exec i { s with st := b } = .next { t with st := b }) ∧
  ∀ (s : State) (x : Reg),
    (∃ t, exec (.ldVxDt x) s = .next t ∧ t.reg x = s.dt ∧ (∀ r, r ≠ x → t.reg r = s.reg r) ∧
      t = { s with v := t.v, pc := s.pc + 2 } ∧ SameBytes s t) ∧
    (∃ t, exec (.ldDtVx x) s = .next t ∧ t = { s with dt := s.reg x, pc := s.pc + 2 } ∧ SameBytes s t) ∧
    (∃ t, exec (.ldStVx x) s = .next t ∧ t = { s with st := s.reg x, pc := s.pc + 2 } ∧
      (t.soundActive = true ↔ s.reg x ≠ 0) ∧ SameBytes s t)

/-- `60_exceptions.md` R224: a tick takes one from each timer that is not 0, in Running and AwaitingKey alike, and nothing
in Halted; it touches nothing else. -/
def Obligations.TickCountsBothTimersDownToZero : Prop :=
  ∀ s : State,
    (s.status = .halted → s.deliver .tick60 = .next s) ∧
    (s.status ≠ .halted → ∃ t, s.deliver .tick60 = .next t ∧
      t.dt.toNat = s.dt.toNat - 1 ∧ t.st.toNat = s.st.toNat - 1 ∧ t = { s with dt := t.dt, st := t.st })

/-- `60_exceptions.md` R226: after m ticks in a row, with nothing in between, each timer has lost m, or is 0. -/
def Obligations.ManyTicksReachZeroAndStay : Prop :=
  ∀ (m : Nat) (s : State), s.status ≠ .halted →
    (State.tick60^[m] s).dt.toNat = s.dt.toNat - m ∧ (State.tick60^[m] s).st.toNat = s.st.toNat - m

/-- `60_exceptions.md` R226: DT never increases except by LD DT, Vx. Which event a step takes is log entry 2. -/
def Obligations.OnlyLoadDtRaisesTheDelayTimer : Prop :=
  ∀ s t : State, step s = .next t → s.dt.toNat < t.dt.toNat →
    s.nextEvent = .step ∧ s.status = .running ∧
      ∃ w x, s.fetch = some w ∧ decode w = some (.ldDtVx x) ∧ t.dt = s.reg x

/-! ## The whole machine -/

/-- `10_state.md` R24: an execution of the Running machine that raises nothing leaves PC where the rule lists it for the
instruction, pc + 2 by default; one that raises leaves it at pc; the press that ends a key wait sets it to pc + 2. -/
def Obligations.EachInstructionMovesPcAsListed : Prop :=
  (∀ (i : Instr) (s t : State), s.status = .running → exec i s = .next t →
    (t.status ≠ .halted → t.pc = nextPc i s) ∧ (t.status = .halted → t.pc = s.pc)) ∧
  ∀ (s t : State) (k : Key), s.status = .awaitingKey → s.deliver (.keySet k) = .next t → t.status = .running →
    t.pc = s.pc + 2

/-- `10_state.md` R27 to R30, R33 to R36, R38 to R40: each piece of state outside V and PC is changed only by its own
instructions: the stack by CALL and RET, FB by CLS and DRW, memory by LD B and LD [I], I, DT and ST by the instructions that
name them, the random source by RND, WAITREG by LD Vx, K, STATUS by LD Vx, K and by an execution that raises, the fault record
by an execution that raises alone; KEY and the configuration by none. The count of draws and the configuration are fields of
the model's making (log entries 5 and 7); `events` and `loadOpen` are its own (log entries 2 and 3), changed by none. -/
def Obligations.EachPieceOfStateHasItsOwnWriters : Prop :=
  ∀ (i : Instr) (s t : State), exec i s = .next t →
    ((∀ nnn, i ≠ .call nnn) → t.stack = s.stack) ∧
    ((∀ nnn, i ≠ .call nnn) → i ≠ .ret → t.sp = s.sp) ∧
    (i ≠ .cls → (∀ x y n, i ≠ .drw x y n) → t.fb = s.fb) ∧
    ((∀ x, i ≠ .ldB x ∧ i ≠ .ldMemVx x) → SameBytes s t ∧ t.mem = s.mem) ∧
    ((∀ nnn, i ≠ .ldI nnn) → (∀ x, i ≠ .addI x ∧ i ≠ .ldF x) → t.i = s.i) ∧
    ((∀ x, i ≠ .ldDtVx x) → t.dt = s.dt) ∧ ((∀ x, i ≠ .ldStVx x) → t.st = s.st) ∧
    ((∀ x nn, i ≠ .rnd x nn) → t.draws = s.draws) ∧ ((∀ x, i ≠ .ldVxK x) → t.waitReg = s.waitReg) ∧
    ((∀ x, i ≠ .ldVxK x) → executionFault i s = none → t.status = s.status) ∧
    (executionFault i s = none → t.fault = s.fault) ∧
    t.config = s.config ∧ t.loadOpen = s.loadOpen ∧ t.events = s.events ∧ t.key = s.key

/-! ## Invariants -/

/-- Every step keeps the memory in its canonical form: only bytes inside MEM are listed, in order, and none at its reset
contents. The
form is the model's, log entry 10. -/
def Obligations.EveryStepKeepsMemoryCanonical : Prop :=
  ∀ s t : State, s.MemoryCanonical → step s = .next t → t.MemoryCanonical

/-- `10_state.md` R25, an inference the spec marks as its own: no step takes PC above 0x10FE. The live return addresses and
the waiting PC stand in the invariant because RET and a key press read them. -/
def Obligations.EveryStepKeepsPcBounded : Prop :=
  ∀ s t : State, s.PcBounded → step s = .next t → t.PcBounded

/-- `10_state.md` R33, R34, R35: every step keeps the status, the fault record, WAITREG and the load port in
agreement. The port is the model's field, log entry 3. -/
def Obligations.EveryStepKeepsTheControlStateCoherent : Prop :=
  ∀ s t : State, s.Coherent → step s = .next t → t.Coherent

/-- `70_reset_and_hazards.md` R255: until the first `step` or load, CORE is as the reset left it, but for the keys. The
field that marks that time is the model's, log entry 3. -/
def Obligations.EveryStepKeepsTheLoadWindow : Prop :=
  ∀ s t : State, s.LoadWindow → step s = .next t → t.LoadWindow

/-- The state after reset meets all the invariants, with every configuration a reset can sample. -/
def Obligations.ResetMeetsTheInvariants : Prop :=
  State.reset.Inv ∧ ∀ (config : Config) (events : List Event), State.Inv { State.resetWith config with events := events }

/-- Every state of every run, with any program, any configuration and any order of events, meets all the invariants. The
list of events, the load port and the memory's form are the model's, log entries 2, 3 and 10. -/
def Obligations.EveryReachableStateMeetsTheInvariants : Prop := ∀ s : State, Reachable s → s.Inv
end

