-- ==== Sys2Proof/Laws/Encoding.lean ====
section
/-! SUPPORT. The fields of an encoded word, and of any word as numbers: what the decoder's proofs rest on. -/

namespace Sys2Proof

/-! ## Fields as numbers -/

theorem opField_toNat (w : Word) : (opField w).toNat = w.toNat / 0x1000 := by
  have := w.isLt
  simp [opField, Nat.shiftRight_eq_div_pow]
  omega

theorem xField_val (w : Word) : (xField w).val = w.toNat / 0x100 % 16 := by
  simp [xField, Nat.shiftRight_eq_div_pow]

theorem yField_val (w : Word) : (yField w).val = w.toNat / 0x10 % 16 := by
  simp [yField, Nat.shiftRight_eq_div_pow]

theorem nField_toNat (w : Word) : (nField w).toNat = w.toNat % 0x10 := by simp [nField]

theorem nnField_toNat (w : Word) : (nnField w).toNat = w.toNat % 0x100 := by simp [nnField]

theorem nnnField_toNat (w : Word) : (nnnField w).toNat = w.toNat % 0x1000 := by
  simp only [nnnField, BitVec.toNat_setWidth, BitVec.extractLsb'_toNat]
  omega

/-! ## Encoded words as numbers -/

theorem toNat_append_nibble {m : Nat} (op : BitVec 4) (b : BitVec m) :
    (op ++ b).toNat = op.toNat * 2 ^ m + b.toNat := by
  rw [BitVec.toNat_append, Nat.shiftLeft_eq, mul_comm, ← Nat.two_pow_add_eq_or_of_lt b.isLt]

theorem encodeNNN_toNat (op : BitVec 4) (nnn : Word) :
    (encodeNNN op nnn).toNat = op.toNat * 0x1000 + nnn.toNat % 0x1000 := by
  rw [encodeNNN, toNat_append_nibble, BitVec.toNat_setWidth]
  norm_num

theorem encodeXNN_toNat (op : BitVec 4) (x : Reg) (nn : Byte) :
    (encodeXNN op x nn).toNat = op.toNat * 0x1000 + x.val * 0x100 + nn.toNat := by
  rw [encodeXNN, toNat_append_nibble, toNat_append_nibble]
  simp only [regBits, BitVec.toNat_ofFin]
  omega

theorem encodeXYN_toNat (op : BitVec 4) (x y : Reg) (n : BitVec 4) :
    (encodeXYN op x y n).toNat = op.toNat * 0x1000 + x.val * 0x100 + y.val * 0x10 + n.toNat := by
  rw [encodeXYN, toNat_append_nibble, toNat_append_nibble, toNat_append_nibble]
  simp only [regBits, BitVec.toNat_ofFin]
  omega

/-! ## Fields of encoded words -/

section
variable (op : BitVec 4) (x y : Reg) (nn : Byte) (n : BitVec 4) (nnn : Word)

@[simp] theorem opField_encodeNNN : opField (encodeNNN op nnn) = op := by
  apply BitVec.eq_of_toNat_eq
  rw [opField_toNat, encodeNNN_toNat]
  omega

theorem nnnField_encodeNNN (h : addressFits nnn = true) : nnnField (encodeNNN op nnn) = nnn := by
  have h' : nnn.toNat < 0x1000 := by simpa [addressFits] using h
  apply BitVec.eq_of_toNat_eq
  rw [nnnField_toNat, encodeNNN_toNat]
  omega

@[simp] theorem opField_encodeXNN : opField (encodeXNN op x nn) = op := by
  apply BitVec.eq_of_toNat_eq
  rw [opField_toNat, encodeXNN_toNat]
  omega

@[simp] theorem xField_encodeXNN : xField (encodeXNN op x nn) = x := by
  apply Fin.ext
  rw [xField_val, encodeXNN_toNat]
  omega

@[simp] theorem nnField_encodeXNN : nnField (encodeXNN op x nn) = nn := by
  apply BitVec.eq_of_toNat_eq
  rw [nnField_toNat, encodeXNN_toNat]
  omega

@[simp] theorem opField_encodeXYN : opField (encodeXYN op x y n) = op := by
  apply BitVec.eq_of_toNat_eq
  rw [opField_toNat, encodeXYN_toNat]
  omega

@[simp] theorem xField_encodeXYN : xField (encodeXYN op x y n) = x := by
  apply Fin.ext
  rw [xField_val, encodeXYN_toNat]
  omega

@[simp] theorem yField_encodeXYN : yField (encodeXYN op x y n) = y := by
  apply Fin.ext
  rw [yField_val, encodeXYN_toNat]
  omega

@[simp] theorem nField_encodeXYN : nField (encodeXYN op x y n) = n := by
  apply BitVec.eq_of_toNat_eq
  rw [nField_toNat, encodeXYN_toNat]
  omega

end

/-! ## Storing a word and reading it back -/

/-- The two bytes of a word, high first, form the word again (`20_memory.md` R50). -/
@[simp] theorem wordOfBytes_bytes (w : Word) : wordOfBytes (highByte w) (lowByte w) = w := by
  have := w.isLt
  apply BitVec.eq_of_toNat_eq
  simp only [wordOfBytes, highByte, lowByte, BitVec.toNat_append, Nat.shiftLeft_eq]
  rw [mul_comm, ← Nat.two_pow_add_eq_or_of_lt (BitVec.isLt _)]
  simp only [BitVec.extractLsb'_toNat, Nat.shiftRight_eq_div_pow]
  omega

end Sys2Proof
end

