-- ==== Sys2Proof/Laws/Memory.lean ====
section
/-! SUPPORT. The laws of memory: a read after a write, and that every memory operation keeps the canonical form. -/

namespace Sys2Proof.Machine

namespace Memory

@[simp] theorem get_nil (a : Nat) : get [] a = resetByte a := rfl

theorem get_cons (c : Host.Cell) (m : Memory) (a : Nat) :
    get (c :: m) a = if a = c.1 then c.2 else get m a := rfl

/-- An address that is not listed reads as the reset contents. -/
theorem get_of_not_listed {m : Memory} {a : Nat} (h : ∀ c ∈ m, c.1 ≠ a) : get m a = resetByte a := by
  induction m with
  | nil => rfl
  | cons c m ih =>
    have hc : ¬ a = c.1 := fun e => h c (by simp) e.symm
    rw [get_cons, if_neg hc]
    exact ih fun d hd => h d (by simp [hd])

theorem not_listed_erase (m : Memory) (a : Nat) : ∀ c ∈ erase m a, c.1 ≠ a := by
  intro c hc
  simpa using (List.mem_filter.mp hc).2

theorem get_erase_ne {m : Memory} {a b : Nat} (h : b ≠ a) : get (erase m a) b = get m b := by
  induction m with
  | nil => rfl
  | cons c m ih =>
    by_cases hc : c.1 = a
    · have hb : b ≠ c.1 := by omega
      rw [get_cons, if_neg hb, ← ih]
      simp [erase, hc]
    · have : erase (c :: m) a = c :: erase m a := by simp [erase, hc]
      rw [this, get_cons, get_cons, ih]

theorem get_insert_same {m : Memory} {a : Nat} (v : Byte) (h : ∀ c ∈ m, c.1 ≠ a) : get (insert m a v) a = v := by
  induction m with
  | nil => simp [insert, get_cons]
  | cons c m ih =>
    have hc : ¬ a = c.1 := fun e => h c (by simp) e.symm
    obtain ⟨b, u⟩ := c
    unfold insert
    split
    · simp [get_cons]
    · rw [get_cons, if_neg hc]
      exact ih fun d hd => h d (by simp [hd])

theorem get_insert_ne {m : Memory} {a b : Nat} (v : Byte) (h : b ≠ a) : get (insert m a v) b = get m b := by
  induction m with
  | nil => simp [insert, get_cons, h]
  | cons c m ih =>
    obtain ⟨d, u⟩ := c
    unfold insert
    split
    · rw [get_cons, if_neg h]
    · rw [get_cons, get_cons, ih]

/-- A read after a write to the same address gives the value written. -/
@[simp] theorem get_put_same (m : Memory) (a : Nat) (v : Byte) : get (put m a v) a = v := by
  unfold put
  split
  · rw [get_of_not_listed (not_listed_erase m a)]
    exact (by assumption : v = resetByte a).symm
  · exact get_insert_same v (not_listed_erase m a)

/-- A write leaves every other address alone. -/
theorem get_put_ne {m : Memory} {a b : Nat} (v : Byte) (h : b ≠ a) : get (put m a v) b = get m b := by
  unfold put
  split
  · exact get_erase_ne h
  · rw [get_insert_ne v h, get_erase_ne h]

theorem mem_insert {m : Memory} {a : Nat} {v : Byte} {c : Host.Cell} : c ∈ insert m a v ↔ c = (a, v) ∨ c ∈ m := by
  induction m with
  | nil => simp [insert]
  | cons d m ih =>
    obtain ⟨b, u⟩ := d
    unfold insert
    split
    · simp
    · simp only [List.mem_cons, ih]
      tauto

theorem pairwise_insert {m : Memory} {a : Nat} {v : Byte} (h : m.Pairwise fun c d => c.1 < d.1)
    (hne : ∀ c ∈ m, c.1 ≠ a) : (insert m a v).Pairwise fun c d => c.1 < d.1 := by
  induction m with
  | nil => simp [insert]
  | cons d m ih =>
    obtain ⟨b, u⟩ := d
    obtain ⟨hb, hm⟩ := List.pairwise_cons.mp h
    have hba : b ≠ a := hne (b, u) (by simp)
    unfold insert
    split
    · rename_i hab
      refine List.pairwise_cons.mpr ⟨fun c hc => ?_, h⟩
      rcases List.mem_cons.mp hc with rfl | hc
      · exact hab
      · exact lt_trans hab (hb c hc)
    · refine List.pairwise_cons.mpr ⟨fun c hc => ?_, ih hm fun c hc => hne c (by simp [hc])⟩
      rcases mem_insert.mp hc with rfl | hc
      · simp only
        omega
      · exact hb c hc

theorem wf_nil : wf [] := ⟨List.Pairwise.nil, by simp⟩

theorem wf_erase {m : Memory} (h : wf m) (a : Nat) : wf (erase m a) :=
  ⟨h.1.filter _, fun c hc => h.2 c (List.mem_filter.mp hc).1⟩

/-- A write inside MEM keeps the canonical form. -/
theorem wf_put {m : Memory} (h : wf m) {a : Nat} (ha : a ≤ Config.lastAddr) (v : Byte) : wf (put m a v) := by
  unfold put
  split
  · exact wf_erase h a
  · rename_i hv
    refine ⟨pairwise_insert (wf_erase h a).1 (not_listed_erase m a), fun c hc => ?_⟩
    rcases mem_insert.mp hc with rfl | hc
    · exact ⟨ha, hv⟩
    · exact (wf_erase h a).2 c hc

/-- Canonical memories that read alike are equal data. -/
theorem ext_of_wf {m n : Memory} (hm : wf m) (hn : wf n) (h : ∀ a, get m a = get n a) : m = n := by
  have listed : ∀ {k : Memory}, wf k → ∀ c, c ∈ k ↔ get k c.1 = c.2 ∧ c.2 ≠ resetByte c.1 := by
    intro k
    induction k with
    | nil => simp
    | cons d k ih =>
      intro hk c
      obtain ⟨hd, hk'⟩ := List.pairwise_cons.mp hk.1
      have ih' := ih ⟨hk', fun e he => hk.2 e (by simp [he])⟩ c
      constructor
      · intro hc
        rcases List.mem_cons.mp hc with rfl | hc
        · exact ⟨by simp [get_cons], (hk.2 c (by simp)).2⟩
        · have hlt := hd c hc
          refine ⟨?_, (ih'.mp hc).2⟩
          rw [get_cons, if_neg (by omega)]
          exact (ih'.mp hc).1
      · rintro ⟨h1, h2⟩
        rw [get_cons] at h1
        split at h1
        · rename_i e
          exact List.mem_cons.mpr (.inl (Prod.ext e h1.symm))
        · exact List.mem_cons.mpr (.inr (ih'.mpr ⟨h1, h2⟩))
  have hmem : ∀ c, c ∈ m ↔ c ∈ n := fun c => by rw [listed hm, listed hn, h]
  have nodup : ∀ {k : Memory}, k.Pairwise (fun c d => c.1 < d.1) → k.Nodup := fun hk => by
    refine List.Pairwise.imp (fun {c d} hcd => ?_) hk
    rintro rfl
    omega
  refine List.Perm.eq_of_pairwise (le := fun c d => c.1 < d.1) ?_ hm.1 hn.1
    ((List.perm_ext_iff_of_nodup (nodup hm.1) (nodup hn.1)).mpr hmem)
  intro a b _ _ hab hba
  omega

end Memory

end Sys2Proof.Machine
end

