-- ==== Sys2Proof/Laws/State.lean ====
section
/-! SUPPORT. One lemma for each field and each update of the state, so that no later proof unfolds a record update. -/

namespace Sys2Proof.Machine

variable (s : State)

/-! ### `State.setReg` -/

@[simp] theorem State.setReg_v (x : Reg) (b : Byte) : (s.setReg x b).v = s.v.set x b := rfl
@[simp] theorem State.setReg_i (x : Reg) (b : Byte) : (s.setReg x b).i = s.i := rfl
@[simp] theorem State.setReg_pc (x : Reg) (b : Byte) : (s.setReg x b).pc = s.pc := rfl
@[simp] theorem State.setReg_dt (x : Reg) (b : Byte) : (s.setReg x b).dt = s.dt := rfl
@[simp] theorem State.setReg_st (x : Reg) (b : Byte) : (s.setReg x b).st = s.st := rfl
@[simp] theorem State.setReg_stack (x : Reg) (b : Byte) : (s.setReg x b).stack = s.stack := rfl
@[simp] theorem State.setReg_sp (x : Reg) (b : Byte) : (s.setReg x b).sp = s.sp := rfl
@[simp] theorem State.setReg_mem (x : Reg) (b : Byte) : (s.setReg x b).mem = s.mem := rfl
@[simp] theorem State.setReg_fb (x : Reg) (b : Byte) : (s.setReg x b).fb = s.fb := rfl
@[simp] theorem State.setReg_key (x : Reg) (b : Byte) : (s.setReg x b).key = s.key := rfl
@[simp] theorem State.setReg_status (x : Reg) (b : Byte) : (s.setReg x b).status = s.status := rfl
@[simp] theorem State.setReg_waitReg (x : Reg) (b : Byte) : (s.setReg x b).waitReg = s.waitReg := rfl
@[simp] theorem State.setReg_fault (x : Reg) (b : Byte) : (s.setReg x b).fault = s.fault := rfl
@[simp] theorem State.setReg_draws (x : Reg) (b : Byte) : (s.setReg x b).draws = s.draws := rfl
@[simp] theorem State.setReg_config (x : Reg) (b : Byte) : (s.setReg x b).config = s.config := rfl
@[simp] theorem State.setReg_loadOpen (x : Reg) (b : Byte) : (s.setReg x b).loadOpen = s.loadOpen := rfl
@[simp] theorem State.setReg_events (x : Reg) (b : Byte) : (s.setReg x b).events = s.events := rfl

/-! ### `State.setI` -/

@[simp] theorem State.setI_v (a : Word) : (s.setI a).v = s.v := rfl
@[simp] theorem State.setI_i (a : Word) : (s.setI a).i = a := rfl
@[simp] theorem State.setI_pc (a : Word) : (s.setI a).pc = s.pc := rfl
@[simp] theorem State.setI_dt (a : Word) : (s.setI a).dt = s.dt := rfl
@[simp] theorem State.setI_st (a : Word) : (s.setI a).st = s.st := rfl
@[simp] theorem State.setI_stack (a : Word) : (s.setI a).stack = s.stack := rfl
@[simp] theorem State.setI_sp (a : Word) : (s.setI a).sp = s.sp := rfl
@[simp] theorem State.setI_mem (a : Word) : (s.setI a).mem = s.mem := rfl
@[simp] theorem State.setI_fb (a : Word) : (s.setI a).fb = s.fb := rfl
@[simp] theorem State.setI_key (a : Word) : (s.setI a).key = s.key := rfl
@[simp] theorem State.setI_status (a : Word) : (s.setI a).status = s.status := rfl
@[simp] theorem State.setI_waitReg (a : Word) : (s.setI a).waitReg = s.waitReg := rfl
@[simp] theorem State.setI_fault (a : Word) : (s.setI a).fault = s.fault := rfl
@[simp] theorem State.setI_draws (a : Word) : (s.setI a).draws = s.draws := rfl
@[simp] theorem State.setI_config (a : Word) : (s.setI a).config = s.config := rfl
@[simp] theorem State.setI_loadOpen (a : Word) : (s.setI a).loadOpen = s.loadOpen := rfl
@[simp] theorem State.setI_events (a : Word) : (s.setI a).events = s.events := rfl

/-! ### `State.setDt` -/

@[simp] theorem State.setDt_v (b : Byte) : (s.setDt b).v = s.v := rfl
@[simp] theorem State.setDt_i (b : Byte) : (s.setDt b).i = s.i := rfl
@[simp] theorem State.setDt_pc (b : Byte) : (s.setDt b).pc = s.pc := rfl
@[simp] theorem State.setDt_dt (b : Byte) : (s.setDt b).dt = b := rfl
@[simp] theorem State.setDt_st (b : Byte) : (s.setDt b).st = s.st := rfl
@[simp] theorem State.setDt_stack (b : Byte) : (s.setDt b).stack = s.stack := rfl
@[simp] theorem State.setDt_sp (b : Byte) : (s.setDt b).sp = s.sp := rfl
@[simp] theorem State.setDt_mem (b : Byte) : (s.setDt b).mem = s.mem := rfl
@[simp] theorem State.setDt_fb (b : Byte) : (s.setDt b).fb = s.fb := rfl
@[simp] theorem State.setDt_key (b : Byte) : (s.setDt b).key = s.key := rfl
@[simp] theorem State.setDt_status (b : Byte) : (s.setDt b).status = s.status := rfl
@[simp] theorem State.setDt_waitReg (b : Byte) : (s.setDt b).waitReg = s.waitReg := rfl
@[simp] theorem State.setDt_fault (b : Byte) : (s.setDt b).fault = s.fault := rfl
@[simp] theorem State.setDt_draws (b : Byte) : (s.setDt b).draws = s.draws := rfl
@[simp] theorem State.setDt_config (b : Byte) : (s.setDt b).config = s.config := rfl
@[simp] theorem State.setDt_loadOpen (b : Byte) : (s.setDt b).loadOpen = s.loadOpen := rfl
@[simp] theorem State.setDt_events (b : Byte) : (s.setDt b).events = s.events := rfl

/-! ### `State.setSt` -/

@[simp] theorem State.setSt_v (b : Byte) : (s.setSt b).v = s.v := rfl
@[simp] theorem State.setSt_i (b : Byte) : (s.setSt b).i = s.i := rfl
@[simp] theorem State.setSt_pc (b : Byte) : (s.setSt b).pc = s.pc := rfl
@[simp] theorem State.setSt_dt (b : Byte) : (s.setSt b).dt = s.dt := rfl
@[simp] theorem State.setSt_st (b : Byte) : (s.setSt b).st = b := rfl
@[simp] theorem State.setSt_stack (b : Byte) : (s.setSt b).stack = s.stack := rfl
@[simp] theorem State.setSt_sp (b : Byte) : (s.setSt b).sp = s.sp := rfl
@[simp] theorem State.setSt_mem (b : Byte) : (s.setSt b).mem = s.mem := rfl
@[simp] theorem State.setSt_fb (b : Byte) : (s.setSt b).fb = s.fb := rfl
@[simp] theorem State.setSt_key (b : Byte) : (s.setSt b).key = s.key := rfl
@[simp] theorem State.setSt_status (b : Byte) : (s.setSt b).status = s.status := rfl
@[simp] theorem State.setSt_waitReg (b : Byte) : (s.setSt b).waitReg = s.waitReg := rfl
@[simp] theorem State.setSt_fault (b : Byte) : (s.setSt b).fault = s.fault := rfl
@[simp] theorem State.setSt_draws (b : Byte) : (s.setSt b).draws = s.draws := rfl
@[simp] theorem State.setSt_config (b : Byte) : (s.setSt b).config = s.config := rfl
@[simp] theorem State.setSt_loadOpen (b : Byte) : (s.setSt b).loadOpen = s.loadOpen := rfl
@[simp] theorem State.setSt_events (b : Byte) : (s.setSt b).events = s.events := rfl

/-! ### `State.setPc` -/

@[simp] theorem State.setPc_v (a : Word) : (s.setPc a).v = s.v := rfl
@[simp] theorem State.setPc_i (a : Word) : (s.setPc a).i = s.i := rfl
@[simp] theorem State.setPc_pc (a : Word) : (s.setPc a).pc = a := rfl
@[simp] theorem State.setPc_dt (a : Word) : (s.setPc a).dt = s.dt := rfl
@[simp] theorem State.setPc_st (a : Word) : (s.setPc a).st = s.st := rfl
@[simp] theorem State.setPc_stack (a : Word) : (s.setPc a).stack = s.stack := rfl
@[simp] theorem State.setPc_sp (a : Word) : (s.setPc a).sp = s.sp := rfl
@[simp] theorem State.setPc_mem (a : Word) : (s.setPc a).mem = s.mem := rfl
@[simp] theorem State.setPc_fb (a : Word) : (s.setPc a).fb = s.fb := rfl
@[simp] theorem State.setPc_key (a : Word) : (s.setPc a).key = s.key := rfl
@[simp] theorem State.setPc_status (a : Word) : (s.setPc a).status = s.status := rfl
@[simp] theorem State.setPc_waitReg (a : Word) : (s.setPc a).waitReg = s.waitReg := rfl
@[simp] theorem State.setPc_fault (a : Word) : (s.setPc a).fault = s.fault := rfl
@[simp] theorem State.setPc_draws (a : Word) : (s.setPc a).draws = s.draws := rfl
@[simp] theorem State.setPc_config (a : Word) : (s.setPc a).config = s.config := rfl
@[simp] theorem State.setPc_loadOpen (a : Word) : (s.setPc a).loadOpen = s.loadOpen := rfl
@[simp] theorem State.setPc_events (a : Word) : (s.setPc a).events = s.events := rfl

/-! ### `State.setFb` -/

@[simp] theorem State.setFb_v (fb : Display) : (s.setFb fb).v = s.v := rfl
@[simp] theorem State.setFb_i (fb : Display) : (s.setFb fb).i = s.i := rfl
@[simp] theorem State.setFb_pc (fb : Display) : (s.setFb fb).pc = s.pc := rfl
@[simp] theorem State.setFb_dt (fb : Display) : (s.setFb fb).dt = s.dt := rfl
@[simp] theorem State.setFb_st (fb : Display) : (s.setFb fb).st = s.st := rfl
@[simp] theorem State.setFb_stack (fb : Display) : (s.setFb fb).stack = s.stack := rfl
@[simp] theorem State.setFb_sp (fb : Display) : (s.setFb fb).sp = s.sp := rfl
@[simp] theorem State.setFb_mem (fb : Display) : (s.setFb fb).mem = s.mem := rfl
@[simp] theorem State.setFb_fb (fb : Display) : (s.setFb fb).fb = fb := rfl
@[simp] theorem State.setFb_key (fb : Display) : (s.setFb fb).key = s.key := rfl
@[simp] theorem State.setFb_status (fb : Display) : (s.setFb fb).status = s.status := rfl
@[simp] theorem State.setFb_waitReg (fb : Display) : (s.setFb fb).waitReg = s.waitReg := rfl
@[simp] theorem State.setFb_fault (fb : Display) : (s.setFb fb).fault = s.fault := rfl
@[simp] theorem State.setFb_draws (fb : Display) : (s.setFb fb).draws = s.draws := rfl
@[simp] theorem State.setFb_config (fb : Display) : (s.setFb fb).config = s.config := rfl
@[simp] theorem State.setFb_loadOpen (fb : Display) : (s.setFb fb).loadOpen = s.loadOpen := rfl
@[simp] theorem State.setFb_events (fb : Display) : (s.setFb fb).events = s.events := rfl

/-! ### `State.setKey` -/

@[simp] theorem State.setKey_v (k : Key) (b : Bool) : (s.setKey k b).v = s.v := rfl
@[simp] theorem State.setKey_i (k : Key) (b : Bool) : (s.setKey k b).i = s.i := rfl
@[simp] theorem State.setKey_pc (k : Key) (b : Bool) : (s.setKey k b).pc = s.pc := rfl
@[simp] theorem State.setKey_dt (k : Key) (b : Bool) : (s.setKey k b).dt = s.dt := rfl
@[simp] theorem State.setKey_st (k : Key) (b : Bool) : (s.setKey k b).st = s.st := rfl
@[simp] theorem State.setKey_stack (k : Key) (b : Bool) : (s.setKey k b).stack = s.stack := rfl
@[simp] theorem State.setKey_sp (k : Key) (b : Bool) : (s.setKey k b).sp = s.sp := rfl
@[simp] theorem State.setKey_mem (k : Key) (b : Bool) : (s.setKey k b).mem = s.mem := rfl
@[simp] theorem State.setKey_fb (k : Key) (b : Bool) : (s.setKey k b).fb = s.fb := rfl
@[simp] theorem State.setKey_key (k : Key) (b : Bool) : (s.setKey k b).key = s.key.set k b := rfl
@[simp] theorem State.setKey_status (k : Key) (b : Bool) : (s.setKey k b).status = s.status := rfl
@[simp] theorem State.setKey_waitReg (k : Key) (b : Bool) : (s.setKey k b).waitReg = s.waitReg := rfl
@[simp] theorem State.setKey_fault (k : Key) (b : Bool) : (s.setKey k b).fault = s.fault := rfl
@[simp] theorem State.setKey_draws (k : Key) (b : Bool) : (s.setKey k b).draws = s.draws := rfl
@[simp] theorem State.setKey_config (k : Key) (b : Bool) : (s.setKey k b).config = s.config := rfl
@[simp] theorem State.setKey_loadOpen (k : Key) (b : Bool) : (s.setKey k b).loadOpen = s.loadOpen := rfl
@[simp] theorem State.setKey_events (k : Key) (b : Bool) : (s.setKey k b).events = s.events := rfl

/-! ### `State.beginWait` -/

@[simp] theorem State.beginWait_v (x : Reg) : (s.beginWait x).v = s.v := rfl
@[simp] theorem State.beginWait_i (x : Reg) : (s.beginWait x).i = s.i := rfl
@[simp] theorem State.beginWait_pc (x : Reg) : (s.beginWait x).pc = s.pc := rfl
@[simp] theorem State.beginWait_dt (x : Reg) : (s.beginWait x).dt = s.dt := rfl
@[simp] theorem State.beginWait_st (x : Reg) : (s.beginWait x).st = s.st := rfl
@[simp] theorem State.beginWait_stack (x : Reg) : (s.beginWait x).stack = s.stack := rfl
@[simp] theorem State.beginWait_sp (x : Reg) : (s.beginWait x).sp = s.sp := rfl
@[simp] theorem State.beginWait_mem (x : Reg) : (s.beginWait x).mem = s.mem := rfl
@[simp] theorem State.beginWait_fb (x : Reg) : (s.beginWait x).fb = s.fb := rfl
@[simp] theorem State.beginWait_key (x : Reg) : (s.beginWait x).key = s.key := rfl
@[simp] theorem State.beginWait_status (x : Reg) : (s.beginWait x).status = .awaitingKey := rfl
@[simp] theorem State.beginWait_waitReg (x : Reg) : (s.beginWait x).waitReg = x := rfl
@[simp] theorem State.beginWait_fault (x : Reg) : (s.beginWait x).fault = s.fault := rfl
@[simp] theorem State.beginWait_draws (x : Reg) : (s.beginWait x).draws = s.draws := rfl
@[simp] theorem State.beginWait_config (x : Reg) : (s.beginWait x).config = s.config := rfl
@[simp] theorem State.beginWait_loadOpen (x : Reg) : (s.beginWait x).loadOpen = s.loadOpen := rfl
@[simp] theorem State.beginWait_events (x : Reg) : (s.beginWait x).events = s.events := rfl

/-! ### `State.endWait` -/

@[simp] theorem State.endWait_v : s.endWait.v = s.v := rfl
@[simp] theorem State.endWait_i : s.endWait.i = s.i := rfl
@[simp] theorem State.endWait_pc : s.endWait.pc = s.pc := rfl
@[simp] theorem State.endWait_dt : s.endWait.dt = s.dt := rfl
@[simp] theorem State.endWait_st : s.endWait.st = s.st := rfl
@[simp] theorem State.endWait_stack : s.endWait.stack = s.stack := rfl
@[simp] theorem State.endWait_sp : s.endWait.sp = s.sp := rfl
@[simp] theorem State.endWait_mem : s.endWait.mem = s.mem := rfl
@[simp] theorem State.endWait_fb : s.endWait.fb = s.fb := rfl
@[simp] theorem State.endWait_key : s.endWait.key = s.key := rfl
@[simp] theorem State.endWait_status : s.endWait.status = .running := rfl
@[simp] theorem State.endWait_waitReg : s.endWait.waitReg = s.waitReg := rfl
@[simp] theorem State.endWait_fault : s.endWait.fault = s.fault := rfl
@[simp] theorem State.endWait_draws : s.endWait.draws = s.draws := rfl
@[simp] theorem State.endWait_config : s.endWait.config = s.config := rfl
@[simp] theorem State.endWait_loadOpen : s.endWait.loadOpen = s.loadOpen := rfl
@[simp] theorem State.endWait_events : s.endWait.events = s.events := rfl

/-! ### `State.countDraw` -/

@[simp] theorem State.countDraw_v : s.countDraw.v = s.v := rfl
@[simp] theorem State.countDraw_i : s.countDraw.i = s.i := rfl
@[simp] theorem State.countDraw_pc : s.countDraw.pc = s.pc := rfl
@[simp] theorem State.countDraw_dt : s.countDraw.dt = s.dt := rfl
@[simp] theorem State.countDraw_st : s.countDraw.st = s.st := rfl
@[simp] theorem State.countDraw_stack : s.countDraw.stack = s.stack := rfl
@[simp] theorem State.countDraw_sp : s.countDraw.sp = s.sp := rfl
@[simp] theorem State.countDraw_mem : s.countDraw.mem = s.mem := rfl
@[simp] theorem State.countDraw_fb : s.countDraw.fb = s.fb := rfl
@[simp] theorem State.countDraw_key : s.countDraw.key = s.key := rfl
@[simp] theorem State.countDraw_status : s.countDraw.status = s.status := rfl
@[simp] theorem State.countDraw_waitReg : s.countDraw.waitReg = s.waitReg := rfl
@[simp] theorem State.countDraw_fault : s.countDraw.fault = s.fault := rfl
@[simp] theorem State.countDraw_draws : s.countDraw.draws = s.draws + 1 := rfl
@[simp] theorem State.countDraw_config : s.countDraw.config = s.config := rfl
@[simp] theorem State.countDraw_loadOpen : s.countDraw.loadOpen = s.loadOpen := rfl
@[simp] theorem State.countDraw_events : s.countDraw.events = s.events := rfl

/-! ### `State.closeLoad` -/

@[simp] theorem State.closeLoad_v : s.closeLoad.v = s.v := rfl
@[simp] theorem State.closeLoad_i : s.closeLoad.i = s.i := rfl
@[simp] theorem State.closeLoad_pc : s.closeLoad.pc = s.pc := rfl
@[simp] theorem State.closeLoad_dt : s.closeLoad.dt = s.dt := rfl
@[simp] theorem State.closeLoad_st : s.closeLoad.st = s.st := rfl
@[simp] theorem State.closeLoad_stack : s.closeLoad.stack = s.stack := rfl
@[simp] theorem State.closeLoad_sp : s.closeLoad.sp = s.sp := rfl
@[simp] theorem State.closeLoad_mem : s.closeLoad.mem = s.mem := rfl
@[simp] theorem State.closeLoad_fb : s.closeLoad.fb = s.fb := rfl
@[simp] theorem State.closeLoad_key : s.closeLoad.key = s.key := rfl
@[simp] theorem State.closeLoad_status : s.closeLoad.status = s.status := rfl
@[simp] theorem State.closeLoad_waitReg : s.closeLoad.waitReg = s.waitReg := rfl
@[simp] theorem State.closeLoad_fault : s.closeLoad.fault = s.fault := rfl
@[simp] theorem State.closeLoad_draws : s.closeLoad.draws = s.draws := rfl
@[simp] theorem State.closeLoad_config : s.closeLoad.config = s.config := rfl
@[simp] theorem State.closeLoad_loadOpen : s.closeLoad.loadOpen = false := rfl
@[simp] theorem State.closeLoad_events : s.closeLoad.events = s.events := rfl

/-! ### `State.writeByte` -/

@[simp] theorem State.writeByte_v (a : Nat) (b : Byte) : (s.writeByte a b).v = s.v := rfl
@[simp] theorem State.writeByte_i (a : Nat) (b : Byte) : (s.writeByte a b).i = s.i := rfl
@[simp] theorem State.writeByte_pc (a : Nat) (b : Byte) : (s.writeByte a b).pc = s.pc := rfl
@[simp] theorem State.writeByte_dt (a : Nat) (b : Byte) : (s.writeByte a b).dt = s.dt := rfl
@[simp] theorem State.writeByte_st (a : Nat) (b : Byte) : (s.writeByte a b).st = s.st := rfl
@[simp] theorem State.writeByte_stack (a : Nat) (b : Byte) : (s.writeByte a b).stack = s.stack := rfl
@[simp] theorem State.writeByte_sp (a : Nat) (b : Byte) : (s.writeByte a b).sp = s.sp := rfl
@[simp] theorem State.writeByte_mem (a : Nat) (b : Byte) : (s.writeByte a b).mem = s.mem.put a b := rfl
@[simp] theorem State.writeByte_fb (a : Nat) (b : Byte) : (s.writeByte a b).fb = s.fb := rfl
@[simp] theorem State.writeByte_key (a : Nat) (b : Byte) : (s.writeByte a b).key = s.key := rfl
@[simp] theorem State.writeByte_status (a : Nat) (b : Byte) : (s.writeByte a b).status = s.status := rfl
@[simp] theorem State.writeByte_waitReg (a : Nat) (b : Byte) : (s.writeByte a b).waitReg = s.waitReg := rfl
@[simp] theorem State.writeByte_fault (a : Nat) (b : Byte) : (s.writeByte a b).fault = s.fault := rfl
@[simp] theorem State.writeByte_draws (a : Nat) (b : Byte) : (s.writeByte a b).draws = s.draws := rfl
@[simp] theorem State.writeByte_config (a : Nat) (b : Byte) : (s.writeByte a b).config = s.config := rfl
@[simp] theorem State.writeByte_loadOpen (a : Nat) (b : Byte) : (s.writeByte a b).loadOpen = s.loadOpen := rfl
@[simp] theorem State.writeByte_events (a : Nat) (b : Byte) : (s.writeByte a b).events = s.events := rfl

/-! ### `State.raise` -/

@[simp] theorem State.raise_v (kind : FaultKind) (word : Option Word) : (s.raise kind word).v = s.v := rfl
@[simp] theorem State.raise_i (kind : FaultKind) (word : Option Word) : (s.raise kind word).i = s.i := rfl
@[simp] theorem State.raise_pc (kind : FaultKind) (word : Option Word) : (s.raise kind word).pc = s.pc := rfl
@[simp] theorem State.raise_dt (kind : FaultKind) (word : Option Word) : (s.raise kind word).dt = s.dt := rfl
@[simp] theorem State.raise_st (kind : FaultKind) (word : Option Word) : (s.raise kind word).st = s.st := rfl
@[simp] theorem State.raise_stack (kind : FaultKind) (word : Option Word) : (s.raise kind word).stack = s.stack := rfl
@[simp] theorem State.raise_sp (kind : FaultKind) (word : Option Word) : (s.raise kind word).sp = s.sp := rfl
@[simp] theorem State.raise_mem (kind : FaultKind) (word : Option Word) : (s.raise kind word).mem = s.mem := rfl
@[simp] theorem State.raise_fb (kind : FaultKind) (word : Option Word) : (s.raise kind word).fb = s.fb := rfl
@[simp] theorem State.raise_key (kind : FaultKind) (word : Option Word) : (s.raise kind word).key = s.key := rfl
@[simp] theorem State.raise_status (kind : FaultKind) (word : Option Word) : (s.raise kind word).status = .halted := rfl
@[simp] theorem State.raise_waitReg (kind : FaultKind) (word : Option Word) : (s.raise kind word).waitReg = s.waitReg := rfl
@[simp] theorem State.raise_fault (kind : FaultKind) (word : Option Word) : (s.raise kind word).fault = some ⟨kind, s.pc, word⟩ := rfl
@[simp] theorem State.raise_draws (kind : FaultKind) (word : Option Word) : (s.raise kind word).draws = s.draws := rfl
@[simp] theorem State.raise_config (kind : FaultKind) (word : Option Word) : (s.raise kind word).config = s.config := rfl
@[simp] theorem State.raise_loadOpen (kind : FaultKind) (word : Option Word) : (s.raise kind word).loadOpen = s.loadOpen := rfl
@[simp] theorem State.raise_events (kind : FaultKind) (word : Option Word) : (s.raise kind word).events = s.events := rfl

/-! ### `State.takeEvent` -/

@[simp] theorem State.takeEvent_v : s.takeEvent.v = s.v := rfl
@[simp] theorem State.takeEvent_i : s.takeEvent.i = s.i := rfl
@[simp] theorem State.takeEvent_pc : s.takeEvent.pc = s.pc := rfl
@[simp] theorem State.takeEvent_dt : s.takeEvent.dt = s.dt := rfl
@[simp] theorem State.takeEvent_st : s.takeEvent.st = s.st := rfl
@[simp] theorem State.takeEvent_stack : s.takeEvent.stack = s.stack := rfl
@[simp] theorem State.takeEvent_sp : s.takeEvent.sp = s.sp := rfl
@[simp] theorem State.takeEvent_mem : s.takeEvent.mem = s.mem := rfl
@[simp] theorem State.takeEvent_fb : s.takeEvent.fb = s.fb := rfl
@[simp] theorem State.takeEvent_key : s.takeEvent.key = s.key := rfl
@[simp] theorem State.takeEvent_status : s.takeEvent.status = s.status := rfl
@[simp] theorem State.takeEvent_waitReg : s.takeEvent.waitReg = s.waitReg := rfl
@[simp] theorem State.takeEvent_fault : s.takeEvent.fault = s.fault := rfl
@[simp] theorem State.takeEvent_draws : s.takeEvent.draws = s.draws := rfl
@[simp] theorem State.takeEvent_config : s.takeEvent.config = s.config := rfl
@[simp] theorem State.takeEvent_loadOpen : s.takeEvent.loadOpen = s.loadOpen := rfl
@[simp] theorem State.takeEvent_events : s.takeEvent.events = s.events.tail := rfl

/-! ### Updates made of these -/

@[simp] theorem State.advance_eq : s.advance = s.setPc (s.pc + 2) := rfl
@[simp] theorem State.skipIf_eq (c : Bool) : s.skipIf c = s.setPc (s.pc + if c then 4 else 2) := rfl
@[simp] theorem State.setFlag_eq (b : Bool) : s.setFlag b = s.setReg vf (flagByte b) := rfl
@[simp] theorem State.setResultFlag_eq (x : Reg) (r : Byte) (b : Bool) :
    s.setResultFlag x r b = (s.setReg x r).setReg vf (flagByte b) := rfl
@[simp] theorem State.raiseAt_eq (kind : FaultKind) (i : Instr) :
    s.raiseAt kind i = s.raise kind (some (encode i)) := rfl

end Sys2Proof.Machine
end

