-- ==== Sys2Proof/Laws/Ops.lean ====
section
/-! SUPPORT. What each shared operation over registers, memory, stack, display and keypad does, said once. -/

namespace Sys2Proof.Machine

variable {s : State}

/-! ## Registers and keys -/

@[simp] theorem State.reg_setReg_same (x : Reg) (b : Byte) : (s.setReg x b).reg x = b := by
  simp [State.reg]

theorem State.reg_setReg_ne {x r : Reg} (b : Byte) (h : r ≠ x) : (s.setReg x b).reg r = s.reg r := by
  have : x.val ≠ r.val := fun e => h (Fin.ext e.symm)
  simp [State.reg, this]

theorem State.reg_setReg (x r : Reg) (b : Byte) : (s.setReg x b).reg r = if r = x then b else s.reg r := by
  split
  · rename_i h
    rw [h, State.reg_setReg_same]
  · exact State.reg_setReg_ne b (by assumption)

@[simp] theorem State.keyDown_setKey_same (k : Key) (b : Bool) : (s.setKey k b).keyDown k = b := by
  simp [State.keyDown]

theorem State.keyDown_setKey_ne {k j : Key} (b : Bool) (h : j ≠ k) : (s.setKey k b).keyDown j = s.keyDown j := by
  have : k.val ≠ j.val := fun e => h (Fin.ext e.symm)
  simp [State.keyDown, this]

@[simp] theorem State.reg_setPc (a : Word) (r : Reg) : (s.setPc a).reg r = s.reg r := rfl
@[simp] theorem State.reg_setI (a : Word) (r : Reg) : (s.setI a).reg r = s.reg r := rfl
@[simp] theorem State.reg_setDt (b : Byte) (r : Reg) : (s.setDt b).reg r = s.reg r := rfl
@[simp] theorem State.reg_setSt (b : Byte) (r : Reg) : (s.setSt b).reg r = s.reg r := rfl
@[simp] theorem State.reg_setFb (fb : Display) (r : Reg) : (s.setFb fb).reg r = s.reg r := rfl
@[simp] theorem State.reg_setKey (k : Key) (b : Bool) (r : Reg) : (s.setKey k b).reg r = s.reg r := rfl
@[simp] theorem State.reg_writeByte (a : Nat) (b : Byte) (r : Reg) : (s.writeByte a b).reg r = s.reg r := rfl
@[simp] theorem State.reg_countDraw (r : Reg) : s.countDraw.reg r = s.reg r := rfl
@[simp] theorem State.reg_endWait (r : Reg) : s.endWait.reg r = s.reg r := rfl
@[simp] theorem State.reg_raise (kind : FaultKind) (word : Option Word) (r : Reg) :
    (s.raise kind word).reg r = s.reg r := rfl

/-! ## Memory of the machine -/

@[simp] theorem State.readByte_writeByte_same (a : Nat) (b : Byte) : (s.writeByte a b).readByte a = b :=
  Memory.get_put_same _ _ _

theorem State.readByte_writeByte_ne {a c : Nat} (b : Byte) (h : c ≠ a) :
    (s.writeByte a b).readByte c = s.readByte c := Memory.get_put_ne b h

@[simp] theorem State.readByte_setReg (x : Reg) (b : Byte) (a : Nat) :
    (s.setReg x b).readByte a = s.readByte a := rfl
@[simp] theorem State.readByte_setPc (c : Word) (a : Nat) : (s.setPc c).readByte a = s.readByte a := rfl
@[simp] theorem State.readByte_setFb (fb : Display) (a : Nat) : (s.setFb fb).readByte a = s.readByte a := rfl
@[simp] theorem State.ea_setReg (x : Reg) (b : Byte) (k : Nat) : (s.setReg x b).ea k = s.ea k := rfl

/-- `storeBytes` touches memory only. -/
theorem State.storeBytes_eq (bs : List Byte) (a : Nat) :
    s.storeBytes a bs = { s with mem := (s.storeBytes a bs).mem } := by
  induction bs generalizing s a with
  | nil => rfl
  | cons b bs ih =>
    show (s.writeByte a b).storeBytes (a + 1) bs = _
    rw [ih]
    rfl

/-- `storeBytes` leaves every byte outside its range alone. -/
theorem State.readByte_storeBytes_outside {bs : List Byte} {a c : Nat} (h : c < a ∨ a + bs.length ≤ c) :
    (s.storeBytes a bs).readByte c = s.readByte c := by
  induction bs generalizing s a with
  | nil => rfl
  | cons b bs ih =>
    simp only [List.length_cons] at h
    show ((s.writeByte a b).storeBytes (a + 1) bs).readByte c = _
    rw [ih (by omega), State.readByte_writeByte_ne b (by omega)]

/-- `storeBytes` puts byte k of the list at the k-th address of its range. -/
theorem State.readByte_storeBytes {bs : List Byte} {a k : Nat} (h : k < bs.length) :
    (s.storeBytes a bs).readByte (a + k) = bs[k] := by
  induction bs generalizing s a k with
  | nil => simp at h
  | cons b bs ih =>
    show ((s.writeByte a b).storeBytes (a + 1) bs).readByte (a + k) = _
    cases k with
    | zero =>
      rw [State.readByte_storeBytes_outside (by omega)]
      simp
    | succ k =>
      have hk : k < bs.length := by simpa using h
      have := ih (s := s.writeByte a b) (a := a + 1) hk
      rw [show a + (k + 1) = a + 1 + k by omega, this]
      rfl

/-- `storeBytes` inside MEM keeps the canonical form. -/
theorem State.wf_storeBytes {bs : List Byte} {a : Nat} (h : s.mem.wf) (hb : a + bs.length ≤ Config.lastAddr + 1) :
    (s.storeBytes a bs).mem.wf := by
  induction bs generalizing s a with
  | nil => exact h
  | cons b bs ih =>
    simp only [List.length_cons] at hb
    exact ih (s := s.writeByte a b) (Memory.wf_put h (by omega) b) (by omega)

/-! ## Fetch -/

theorem State.fetch_of_le (h : s.pc.toNat ≤ 0xFFE) :
    s.fetch = some (wordOfBytes (s.readByte s.pc.toNat) (s.readByte (s.pc.toNat + 1))) := by
  have h1 : s.pc.toNat ≤ Config.lastAddr := by unfold Config.lastAddr; omega
  have h2 : s.pc.toNat + 1 ≤ Config.lastAddr := by unfold Config.lastAddr; omega
  simp [State.fetch, State.memRead, h1, h2]

theorem State.fetch_of_gt (h : 0xFFE < s.pc.toNat) : s.fetch = none := by
  have h2 : ¬ s.pc.toNat + 1 ≤ Config.lastAddr := by unfold Config.lastAddr; omega
  by_cases h1 : s.pc.toNat ≤ Config.lastAddr <;> simp [State.fetch, State.memRead, h1, h2]

theorem State.pc_of_fetch {w : Word} (h : s.fetch = some w) : s.pc.toNat ≤ 0xFFE := by
  by_contra hc
  rw [State.fetch_of_gt (by omega)] at h
  cases h

/-- A fetch depends on PC and memory only. -/
theorem State.fetch_congr {t : State} (hp : t.pc = s.pc) (hm : t.mem = s.mem) : t.fetch = s.fetch := by
  simp only [State.fetch, State.memRead, State.readByte, hp, hm]

/-! ## Call stack -/

/-- All that a push can do. -/
theorem State.push_cases (s : State) (a : Word) :
    (s.sp.val = 16 ∧ s.push a = none) ∨
    (s.sp.val < 16 ∧ ∃ t, s.push a = some t ∧ t.sp.val = s.sp.val + 1 ∧
      (∀ j : Fin 16, j.val = s.sp.val → t.stack[j] = a) ∧
      (∀ j : Fin 16, j.val ≠ s.sp.val → t.stack[j] = s.stack[j]) ∧
      t = { s with stack := t.stack, sp := t.sp }) := by
  by_cases h : s.sp.val < 16
  · refine .inr ⟨h, _, by simp [State.push, h]; rfl, rfl, fun j hj => ?_, fun j hj => ?_, rfl⟩
    · simp [hj]
    · simp [Ne.symm hj]
  · exact .inl ⟨by omega, by simp [State.push, h]⟩

/-- All that a pop can do. -/
theorem State.pop_cases (s : State) :
    (s.sp.val = 0 ∧ s.pop = none) ∨
    (0 < s.sp.val ∧ ∃ a t, s.pop = some (a, t) ∧ t.sp.val = s.sp.val - 1 ∧
      (∀ j : Fin 16, j.val = s.sp.val - 1 → a = s.stack[j]) ∧ t = { s with sp := t.sp }) := by
  by_cases h : 0 < s.sp.val
  · refine .inr ⟨h, _, _, by simp only [State.pop, h, dif_pos]; rfl, rfl, fun j hj => ?_, rfl⟩
    simp [hj]
  · exact .inl ⟨by omega, by simp [State.pop, h]⟩

/-! ## Operands -/

theorem mem_regsUpTo {x r : Reg} : r ∈ regsUpTo x ↔ r ≤ x := by
  revert x r
  decide

theorem length_regsUpTo (x : Reg) : (regsUpTo x).length = x.val + 1 := by
  revert x
  decide

theorem getElem_regsUpTo (x r : Reg) (h : r ≤ x) : (regsUpTo x)[r.val]? = some r := by
  revert x r
  decide

theorem nodup_regsUpTo (x : Reg) : (regsUpTo x).Nodup := by
  revert x
  decide

theorem lowNibble_val (b : Byte) : (lowNibble b).val = b.toNat % 16 := by
  simp [lowNibble]

theorem reaches_iff (k : Nat) : s.reaches k = true ↔ s.i.toNat + k ≤ 0xFFF := by
  exact decide_eq_true_iff

/-! ## Register load -/

/-- Loading registers touches V only. -/
theorem State.loadRegs_eq (rs : List Reg) : s.loadRegs rs = { s with v := (s.loadRegs rs).v } := by
  induction rs generalizing s with
  | nil => rfl
  | cons r rs ih =>
    show (s.setReg r (s.readByte (s.ea r))).loadRegs rs = _
    rw [ih]
    rfl

/-- Loading registers gives each register of the list its byte, and leaves the others alone. -/
theorem State.reg_loadRegs (rs : List Reg) (hn : rs.Nodup) (r : Reg) :
    (s.loadRegs rs).reg r = if r ∈ rs then s.readByte (s.ea r) else s.reg r := by
  induction rs generalizing s with
  | nil => simp [State.loadRegs]
  | cons q rs ih =>
    obtain ⟨hq, hn'⟩ := List.nodup_cons.mp hn
    show ((s.setReg q (s.readByte (s.ea q))).loadRegs rs).reg r = _
    rw [ih hn']
    by_cases hr : r = q
    · subst hr
      simp [hq]
    · simp [hr, State.reg_setReg_ne _ hr]

end Sys2Proof.Machine
end

