-- ==== Sys2Proof/Laws/PerInstr.lean ====
section
/-! SUPPORT. Laws proved instruction by instruction: the word of an instruction selects the instruction's own row of the
opcode table (`30_encoding.md` R74), whatever its operands. -/

namespace Sys2Proof.Laws

/-! ## Masking an encoded word -/

theorem and_all_nibble : ∀ a : BitVec 4, a &&& (15 : BitVec 4) = a := by decide

theorem and_all_byte (a : Byte) : a &&& (255 : BitVec 8) = a := BitVec.and_allOnes

theorem and_nought {m : Nat} (a : BitVec m) : a &&& (0 : BitVec m) = 0 := BitVec.and_zero

theorem selects_nnn {op : BitVec 4} {nnn : Word} {bits : Word} (h : bits = op ++ (0 : BitVec 12)) :
    OpcodeRow.selects ⟨bits, 0xF000⟩ (encodeNNN op nnn) = true := by
  have hm : (0xF000 : Word) = (15 : BitVec 4) ++ (0 : BitVec 12) := by decide
  simp only [OpcodeRow.selects, encodeNNN, beq_iff_eq, h, hm]
  rw [BitVec.and_append, and_all_nibble, and_nought]

theorem selects_xnn {op : BitVec 4} {x : Reg} {nn : Byte} {bits : Word} (h : bits = op ++ (0 : BitVec 12)) :
    OpcodeRow.selects ⟨bits, 0xF000⟩ (encodeXNN op x nn) = true := by
  have hm : (0xF000 : Word) = (15 : BitVec 4) ++ (0 : BitVec 12) := by decide
  simp only [OpcodeRow.selects, encodeXNN, beq_iff_eq, h, hm]
  rw [BitVec.and_append, and_all_nibble, and_nought]

theorem selects_x {op : BitVec 4} {x : Reg} {sub : Byte} {bits : Word}
    (h : bits = op ++ ((0 : BitVec 4) ++ sub)) :
    OpcodeRow.selects ⟨bits, 0xF0FF⟩ (encodeXNN op x sub) = true := by
  have hm : (0xF0FF : Word) = (15 : BitVec 4) ++ ((0 : BitVec 4) ++ (255 : BitVec 8)) := by decide
  simp only [OpcodeRow.selects, encodeXNN, beq_iff_eq, h, hm]
  rw [BitVec.and_append, BitVec.and_append, and_all_nibble, and_all_byte, and_nought]

theorem selects_xyn {op : BitVec 4} {x y : Reg} {n : BitVec 4} {bits : Word} (h : bits = op ++ (0 : BitVec 12)) :
    OpcodeRow.selects ⟨bits, 0xF000⟩ (encodeXYN op x y n) = true := by
  have hm : (0xF000 : Word) = (15 : BitVec 4) ++ (0 : BitVec 12) := by decide
  simp only [OpcodeRow.selects, encodeXYN, beq_iff_eq, h, hm]
  rw [BitVec.and_append, and_all_nibble, and_nought]

theorem selects_xy {op : BitVec 4} {x y : Reg} {sub : BitVec 4} {bits : Word}
    (h : bits = op ++ ((0 : BitVec 4) ++ ((0 : BitVec 4) ++ sub))) :
    OpcodeRow.selects ⟨bits, 0xF00F⟩ (encodeXYN op x y sub) = true := by
  have hm : (0xF00F : Word) = (15 : BitVec 4) ++ ((0 : BitVec 4) ++ ((0 : BitVec 4) ++ (15 : BitVec 4))) := by decide
  simp only [OpcodeRow.selects, encodeXYN, beq_iff_eq, h, hm]
  rw [BitVec.and_append, BitVec.and_append, BitVec.and_append, and_all_nibble, and_all_nibble, and_nought, and_nought]

/-! ## One lemma for each instruction -/

namespace EncodeSelectsRow

/-- The word of the instruction selects the instruction's row. -/
def Statement (i : Instr) : Prop := i.row.selects (encode i) = true

theorem cls : Statement .cls := rfl
theorem ret : Statement .ret := rfl
theorem jp (nnn : Word) : Statement (.jp nnn) := selects_nnn (by decide)
theorem call (nnn : Word) : Statement (.call nnn) := selects_nnn (by decide)
theorem seImm (x : Reg) (nn : Byte) : Statement (.seImm x nn) := selects_xnn (by decide)
theorem sneImm (x : Reg) (nn : Byte) : Statement (.sneImm x nn) := selects_xnn (by decide)
theorem seReg (x y : Reg) : Statement (.seReg x y) := selects_xy (by decide)
theorem ldImm (x : Reg) (nn : Byte) : Statement (.ldImm x nn) := selects_xnn (by decide)
theorem addImm (x : Reg) (nn : Byte) : Statement (.addImm x nn) := selects_xnn (by decide)
theorem ldReg (x y : Reg) : Statement (.ldReg x y) := selects_xy (by decide)
theorem or (x y : Reg) : Statement (.or x y) := selects_xy (by decide)
theorem and (x y : Reg) : Statement (.and x y) := selects_xy (by decide)
theorem xor (x y : Reg) : Statement (.xor x y) := selects_xy (by decide)
theorem addReg (x y : Reg) : Statement (.addReg x y) := selects_xy (by decide)
theorem sub (x y : Reg) : Statement (.sub x y) := selects_xy (by decide)
theorem shr (x y : Reg) : Statement (.shr x y) := selects_xy (by decide)
theorem subn (x y : Reg) : Statement (.subn x y) := selects_xy (by decide)
theorem shl (x y : Reg) : Statement (.shl x y) := selects_xy (by decide)
theorem sneReg (x y : Reg) : Statement (.sneReg x y) := selects_xy (by decide)
theorem ldI (nnn : Word) : Statement (.ldI nnn) := selects_nnn (by decide)
theorem jpV0 (nnn : Word) : Statement (.jpV0 nnn) := selects_nnn (by decide)
theorem rnd (x : Reg) (nn : Byte) : Statement (.rnd x nn) := selects_xnn (by decide)
theorem drw (x y : Reg) (n : Nat) : Statement (.drw x y n) := selects_xyn (by decide)
theorem skp (x : Reg) : Statement (.skp x) := selects_x (by decide)
theorem sknp (x : Reg) : Statement (.sknp x) := selects_x (by decide)
theorem ldVxDt (x : Reg) : Statement (.ldVxDt x) := selects_x (by decide)
theorem ldVxK (x : Reg) : Statement (.ldVxK x) := selects_x (by decide)
theorem ldDtVx (x : Reg) : Statement (.ldDtVx x) := selects_x (by decide)
theorem ldStVx (x : Reg) : Statement (.ldStVx x) := selects_x (by decide)
theorem addI (x : Reg) : Statement (.addI x) := selects_x (by decide)
theorem ldF (x : Reg) : Statement (.ldF x) := selects_x (by decide)
theorem ldB (x : Reg) : Statement (.ldB x) := selects_x (by decide)
theorem ldMemVx (x : Reg) : Statement (.ldMemVx x) := selects_x (by decide)
theorem ldVxMem (x : Reg) : Statement (.ldVxMem x) := selects_x (by decide)

end EncodeSelectsRow

end Sys2Proof.Laws
end

