-- ==== Sys2Proof/Laws/Sprite.lean ====
section
/-! SUPPORT. What drawing a sprite does, pixel by pixel: the loop of DRW inverts each pixel that a set sprite bit lands on,
exactly once, and its `hit` says whether one of them was set (`41_display.md` R121, R122 (g)). -/

namespace Sys2Proof.Machine

/-! ## Displays -/

theorem Display.ext_pixel {fb gb : Display} (h : ∀ row col, fb.pixel row col = gb.pixel row col) : fb = gb := by
  apply Vector.ext
  intro r hr
  apply Vector.ext
  intro c hc
  exact h ⟨r, hr⟩ ⟨c, hc⟩

theorem Display.pixel_flip_same (fb : Display) (row : Fin 32) (col : Fin 64) :
    (fb.flip row col).pixel row col = !fb.pixel row col := by
  simp [Display.flip, Display.pixel]

theorem Display.pixel_flip_ne (fb : Display) {row row' : Fin 32} {col col' : Fin 64} (h : (row', col') ≠ (row, col)) :
    (fb.flip row col).pixel row' col' = fb.pixel row' col' := by
  by_cases hr : row' = row
  · subst hr
    have hc : col.val ≠ col'.val := fun e => h (by rw [Fin.ext e])
    simp [Display.flip, Display.pixel, hc]
  · have hr' : row.val ≠ row'.val := fun e => hr (Fin.ext e.symm)
    simp [Display.flip, Display.pixel, hr']

@[simp] theorem Display.pixel_clear (row : Fin 32) (col : Fin 64) : Display.clear.pixel row col = false := by
  simp [Display.clear, Display.pixel]

/-! ## Where a sprite pixel lands -/

/-- The display pixel a sprite pixel inverts: none for a zero bit, and for a clipped one. -/
def landing (s : State) (x0 y0 : Nat) (cell : Nat × Nat) : Option (Fin 32 × Fin 64) :=
  if spriteBit (s.readByte (s.ea cell.1)) cell.2 then
    pixelTarget s.config.quirkWrapSprites (y0 + cell.1) (x0 + cell.2)
  else none

theorem pixelTarget_eq_some {wrap : Bool} {r c : Nat} {row : Fin 32} {col : Fin 64} :
    pixelTarget wrap r c = some (row, col) ↔
      if wrap then row.val = r % 32 ∧ col.val = c % 64 else row.val = r ∧ col.val = c := by
  cases wrap
  · simp only [pixelTarget, Bool.false_eq_true, if_false]
    split
    · simp only [Option.some.injEq, Prod.mk.injEq, Fin.ext_iff]
      constructor <;> rintro ⟨h1, h2⟩ <;> exact ⟨h1.symm, h2.symm⟩
    · rename_i h
      have := row.isLt
      have := col.isLt
      simp only [reduceCtorEq, false_iff]
      rintro ⟨h1, h2⟩
      exact h ⟨by omega, by omega⟩
  · simp only [pixelTarget, if_true, Option.some.injEq, Prod.mk.injEq, Fin.ext_iff]
    constructor <;> rintro ⟨h1, h2⟩ <;> exact ⟨h1.symm, h2.symm⟩

theorem mem_spriteCells {n r c : Nat} : (r, c) ∈ spriteCells n ↔ r < n ∧ c < 8 := by
  simp [spriteCells]

theorem nodup_spriteCells (n : Nat) : (spriteCells n).Nodup := by
  refine List.nodup_flatMap.mpr ⟨fun r _ => ?_, ?_⟩
  · exact List.nodup_range.map fun a b h => by simpa using h
  · refine List.Pairwise.imp ?_ List.nodup_range
    intro a b hab
    simp only [Function.onFun, List.disjoint_left, List.mem_map]
    rintro _ ⟨c, _, rfl⟩ ⟨d, _, h⟩
    exact hab (by simpa using (congrArg Prod.fst h).symm)

/-- Two pixels of a sprite of at most 32 rows never land on the same display pixel. -/
theorem landing_inj {s : State} {x0 y0 n : Nat} (hn : n ≤ 32) {a b : Nat × Nat} (ha : a ∈ spriteCells n)
    (hb : b ∈ spriteCells n) {p : Fin 32 × Fin 64} (h1 : landing s x0 y0 a = some p)
    (h2 : landing s x0 y0 b = some p) : a = b := by
  obtain ⟨ra, ca⟩ := a
  obtain ⟨rb, cb⟩ := b
  obtain ⟨row, col⟩ := p
  rw [mem_spriteCells] at ha hb
  unfold landing at h1 h2
  split at h1
  · split at h2
    · rw [pixelTarget_eq_some] at h1 h2
      split at h1
      · rw [if_pos (by assumption)] at h2
        simp only [Prod.mk.injEq]
        omega
      · rw [if_neg (by assumption)] at h2
        simp only [Prod.mk.injEq]
        omega
    · cases h2
  · cases h1

/-! ## The loop -/

theorem drawPixel_none {s : State} {x0 y0 : Nat} {acc : Display × Bool} {cell : Nat × Nat}
    (h : landing s x0 y0 cell = none) : drawPixel s x0 y0 acc cell = acc := by
  unfold landing at h
  unfold drawPixel
  split
  · rw [if_pos (by assumption)] at h
    rw [h]
  · rfl

theorem drawPixel_some {s : State} {x0 y0 : Nat} {acc : Display × Bool} {cell : Nat × Nat} {row : Fin 32}
    {col : Fin 64} (h : landing s x0 y0 cell = some (row, col)) :
    drawPixel s x0 y0 acc cell = (acc.1.flip row col, acc.2 || acc.1.pixel row col) := by
  unfold landing at h
  unfold drawPixel
  split
  · rw [if_pos (by assumption)] at h
    rw [h]
  · rw [if_neg (by assumption)] at h
    cases h

/-- The loop over any list of sprite pixels whose landings differ. -/
theorem foldl_drawPixel {s : State} {x0 y0 : Nat} (cells : List (Nat × Nat)) (hn : cells.Nodup)
    (hinj : ∀ a ∈ cells, ∀ b ∈ cells, ∀ p, landing s x0 y0 a = some p → landing s x0 y0 b = some p → a = b)
    (acc : Display × Bool) :
    (∀ row col, ((cells.foldl (drawPixel s x0 y0) acc).1.pixel row col = true ↔
      ¬ (acc.1.pixel row col = true ↔ ∃ a ∈ cells, landing s x0 y0 a = some (row, col)))) ∧
    ((cells.foldl (drawPixel s x0 y0) acc).2 = true ↔
      acc.2 = true ∨ ∃ a ∈ cells, ∃ row col, landing s x0 y0 a = some (row, col) ∧ acc.1.pixel row col = true) := by
  induction cells generalizing acc with
  | nil => simp
  | cons a cells ih =>
    obtain ⟨ha, hn'⟩ := List.nodup_cons.mp hn
    have hinj' : ∀ c ∈ cells, ∀ d ∈ cells, ∀ p, landing s x0 y0 c = some p → landing s x0 y0 d = some p → c = d :=
      fun c hc d hd => hinj c (by simp [hc]) d (by simp [hd])
    obtain ⟨ih1, ih2⟩ := ih hn' hinj' (drawPixel s x0 y0 acc a)
    rw [List.foldl_cons]
    cases hl : landing s x0 y0 a with
    | none =>
      rw [drawPixel_none hl] at ih1 ih2 ⊢
      refine ⟨fun row col => ?_, ?_⟩
      · rw [ih1]
        simp [hl]
      · rw [ih2]
        simp [hl]
    | some p =>
      obtain ⟨row₀, col₀⟩ := p
      have hout : ∀ c ∈ cells, landing s x0 y0 c ≠ some (row₀, col₀) := fun c hc e =>
        ha (hinj a (by simp) c (by simp [hc]) _ hl e ▸ hc)
      rw [drawPixel_some hl] at ih1 ih2 ⊢
      refine ⟨fun row col => ?_, ?_⟩
      · rw [ih1]
        by_cases hp : (row, col) = (row₀, col₀)
        · obtain ⟨rfl, rfl⟩ := Prod.mk.inj hp
          have hno : ¬ ∃ c ∈ cells, landing s x0 y0 c = some (row, col) := fun ⟨c, hc, e⟩ => hout c hc e
          have hyes : ∃ c ∈ a :: cells, landing s x0 y0 c = some (row, col) := ⟨a, by simp, hl⟩
          simp only [hno, hyes, Display.pixel_flip_same]
          cases acc.1.pixel row col <;> simp
        · have : (∃ c ∈ a :: cells, landing s x0 y0 c = some (row, col)) ↔
              ∃ c ∈ cells, landing s x0 y0 c = some (row, col) := by
            have hp' : (row₀, col₀) ≠ (row, col) := Ne.symm hp
            simp [hl, hp']
          rw [this, Display.pixel_flip_ne _ hp]
      · rw [ih2]
        have hsame : ∀ c ∈ cells, ∀ row col, landing s x0 y0 c = some (row, col) →
            (acc.1.flip row₀ col₀).pixel row col = acc.1.pixel row col := fun c hc row col e =>
          Display.pixel_flip_ne _ fun h => hout c hc (h ▸ e)
        constructor
        · rintro (h | ⟨c, hc, row, col, e, h⟩)
          · rcases Bool.or_eq_true_iff.mp h with h | h
            · exact .inl h
            · exact .inr ⟨a, by simp, row₀, col₀, hl, h⟩
          · exact .inr ⟨c, by simp [hc], row, col, e, by rw [← hsame c hc row col e]; exact h⟩
        · rintro (h | ⟨c, hc, row, col, e, h⟩)
          · exact .inl (by simp [h])
          · rcases List.mem_cons.mp hc with rfl | hc
            · rw [hl] at e
              obtain ⟨rfl, rfl⟩ := Prod.mk.inj (Option.some.inj e)
              exact .inl (by simp [h])
            · exact .inr ⟨c, hc, row, col, e, by rw [hsame c hc row col e]; exact h⟩

/-- All that drawing a sprite does: a pixel is inverted exactly when a set sprite bit lands on it, and `hit` is whether
one of those pixels was set. -/
theorem drawSprite_spec (s : State) (x0 y0 : Nat) {n : Nat} (hn : n ≤ 32) :
    (∀ row col, ((drawSprite s x0 y0 n).1.pixel row col = true ↔
      ¬ (s.pixel row col = true ↔ ∃ a ∈ spriteCells n, landing s x0 y0 a = some (row, col)))) ∧
    ((drawSprite s x0 y0 n).2 = true ↔
      ∃ a ∈ spriteCells n, ∃ row col, landing s x0 y0 a = some (row, col) ∧ s.pixel row col = true) := by
  have := foldl_drawPixel (s := s) (x0 := x0) (y0 := y0) (spriteCells n) (nodup_spriteCells n)
    (fun a ha b hb p h1 h2 => landing_inj hn ha hb h1 h2) (s.fb, false)
  refine ⟨this.1, this.2.trans ?_⟩
  simp [State.pixel]

end Sys2Proof.Machine
end

