-- ==== Sys2Proof/Tests/Slice0.lean ====
section
/-! SUPPORT. The model's own tests, each about one step or one event, and a witness for the hypotheses of every statement
that has some. Expected results are those of `95_test_vectors.md` (the id of a vector stands in the docstring), or are
written out from the rule named. -/

namespace Sys2Proof.Tests

open Sys2Proof.Machine

/-! ## Small states -/

/-- The machine after reset, load port closed, with some registers set. -/
def withRegs (rs : List (Reg × Byte)) : State := rs.foldl (fun s p => s.setReg p.1 p.2) State.reset.closeLoad

/-- `withRegs` with I set. -/
def withI (a : Word) (rs : List (Reg × Byte)) : State := (withRegs rs).setI a

/-- Look at the state after one step on the instruction word `w`. -/
def after {α : Type} (s : State) (w : Nat) (look : State → α) : Option α :=
  match step (s.withFetchWord 16 w) with
  | .next t => some (look t)
  | .fault _ => none
  | .refused _ => none

/-- Look at the state after one event. -/
def afterEvent {α : Type} (s : State) (e : Event) (look : State → α) : Option α :=
  match s.deliver e with
  | .next t => some (look t)
  | .fault _ => none
  | .refused _ => none

/-- What a vector of the ALU table looks at: Vx, VF and PC. -/
def xFlagPc (x : Reg) (t : State) : Byte × Byte × Word := (t.reg x, t.reg vf, t.pc)

/-- What a faulting vector looks at: the record, PC and the status. -/
def faultView (t : State) : Option FaultRecord × Word × Status := (t.fault, t.pc, t.status)

/-! ## WellFormed: the check refuses an ill-formed term of each kind, and takes the largest well-formed one -/

theorem test_wf_jp : ¬ (Instr.jp 0x1000).WellFormed ∧ (Instr.jp 0xFFF).WellFormed := by decide
theorem test_wf_call : ¬ (Instr.call 0x1000).WellFormed ∧ (Instr.call 0xFFF).WellFormed := by decide
theorem test_wf_ldI : ¬ (Instr.ldI 0x1000).WellFormed ∧ (Instr.ldI 0xFFF).WellFormed := by decide
theorem test_wf_jpV0 : ¬ (Instr.jpV0 0xFFFF).WellFormed ∧ (Instr.jpV0 0xFFF).WellFormed := by decide
theorem test_wf_drw : ¬ (Instr.drw 0 0 16).WellFormed ∧ (Instr.drw 15 15 15).WellFormed := by decide

/-! ## Decoding: a word written out from `30_encoding.md` R71, R74 for every constructor -/

/-- Family 0. Also E2, E4. -/
theorem test_decode_family0 :
    decode 0b0000_0000_1110_0000 = some .cls ∧ decode 0b0000_0000_1110_1110 = some .ret := by decide

/-- Formats NNN: op, then the twelve address bits. -/
theorem test_decode_nnn :
    decode 0b0001_1010_0101_1100 = some (.jp 0xA5C) ∧ decode 0b0010_0011_0000_0001 = some (.call 0x301) ∧
    decode 0b1010_1011_1100_1101 = some (.ldI 0xBCD) ∧ decode 0b1011_0100_0011_0010 = some (.jpV0 0x432) := by decide

/-- Format XNN: op, x, then the eight immediate bits. -/
theorem test_decode_xnn :
    decode 0b0011_0001_0010_0011 = some (.seImm 1 0x23) ∧ decode 0b0100_1110_1111_0000 = some (.sneImm 14 0xF0) ∧
    decode 0b0110_1010_0010_1111 = some (.ldImm 10 0x2F) ∧ decode 0b0111_0011_0000_0001 = some (.addImm 3 1) ∧
    decode 0b1100_0010_0000_1111 = some (.rnd 2 0x0F) := by decide

/-- Format XY outside family 8, and format XYN. -/
theorem test_decode_xy :
    decode 0b0101_0001_0010_0000 = some (.seReg 1 2) ∧ decode 0b1001_1101_0100_0000 = some (.sneReg 13 4) ∧
    decode 0b1101_0001_0010_1111 = some (.drw 1 2 15) := by decide

/-- Family 8. -/
theorem test_decode_family8 :
    decode 0b1000_0001_0010_0000 = some (.ldReg 1 2) ∧ decode 0b1000_0001_0010_0001 = some (.or 1 2) ∧
    decode 0b1000_0001_0010_0010 = some (.and 1 2) ∧ decode 0b1000_0001_0010_0011 = some (.xor 1 2) ∧
    decode 0b1000_0001_0010_0100 = some (.addReg 1 2) ∧ decode 0b1000_0001_0010_0101 = some (.sub 1 2) ∧
    decode 0b1000_0001_0010_0110 = some (.shr 1 2) ∧ decode 0b1000_0001_0010_0111 = some (.subn 1 2) ∧
    decode 0b1000_0001_0010_1110 = some (.shl 1 2) := by decide

/-- Family E. -/
theorem test_decode_familyE :
    decode 0b1110_0001_1001_1110 = some (.skp 1) ∧ decode 0b1110_1100_1010_0001 = some (.sknp 12) := by decide

/-- Family F. -/
theorem test_decode_familyF :
    decode 0b1111_0111_0000_0111 = some (.ldVxDt 7) ∧ decode 0b1111_0001_0000_1010 = some (.ldVxK 1) ∧
    decode 0b1111_0010_0001_0101 = some (.ldDtVx 2) ∧ decode 0b1111_0011_0001_1000 = some (.ldStVx 3) ∧
    decode 0b1111_0100_0001_1110 = some (.addI 4) ∧ decode 0b1111_0101_0010_1001 = some (.ldF 5) ∧
    decode 0b1111_0110_0011_0011 = some (.ldB 6) ∧ decode 0b1111_1000_0101_0101 = some (.ldMemVx 8) ∧
    decode 0b1111_1111_0110_0101 = some (.ldVxMem 15) := by decide

/-- E1, E3, E5, E6, E9, E11, E13, E15, E18, E21, E22, E23: illegal words. -/
theorem test_decode_illegal :
    [0x0000, 0x00E1, 0x00FF, 0x0123, 0x5121, 0x8128, 0x812F, 0x912F, 0xE19D, 0xF100, 0xF175, 0xF000].map decode =
      List.replicate 12 none := by decide

/-- Bytes are read high byte first, the rest is left, and a lone byte is rejected by name. -/
theorem test_decode_bytes :
    (match decodeBytes [0x12, 0x34, 0x56] with | .ok r => some r | .error _ => none) = some (.jp 0x234, [0x56]) ∧
    (match decodeBytes [0x12] with | .ok _ => none | .error e => some e) = some DecodeError.truncated := by decide

/-- The table's own numbering: a word is a word, and a shorter row reads as if its upper bits were 0. -/
theorem test_decode_table_word :
    decodeTableWord 16 0xD125 = some (.drw 1 2 5) ∧ decodeTableWord 16 0x0000 = none ∧
    decodeTableWord 8 0xFFE0 = some .cls := by decide

/-- Encoded words, from the patterns of `30_encoding.md` R74. -/
theorem test_encode :
    encode (.call 0x300) = 0x2300 ∧ encode (.ldImm 10 0x2F) = 0x6A2F ∧ encode (.shl 1 2) = 0x812E ∧
    encode (.drw 1 2 0) = 0xD120 ∧ encode (.ldVxMem 15) = 0xFF65 ∧ encode .ret = 0x00EE := by decide

/-! ## Fetch, memory -/

/-- The fetch vector of `95_test_vectors.md`: 12 34 is 0x1234. -/
theorem test_fetch_big_endian :
    (State.reset.storeBytes 0x200 [0x12, 0x34]).fetch = some 0x1234 := by decide

/-- CT10: a fetch at 0xFFF faults with no word. -/
theorem test_fetch_out_of_bounds :
    afterEvent (State.reset.setPc 0xFFF) .step faultView = some (some ⟨.outOfBounds, 0xFFF, none⟩, 0xFFF, .halted) := by
  decide

/-- A byte set back to its reset value is listed no more, in zeroed memory and in the font. -/
theorem test_memory_canonical :
    ((State.reset.writeByte 0x300 7).writeByte 0x300 0).mem = [] ∧
    ((State.reset.writeByte 0x050 0).writeByte 0x050 0xF0).mem = [] ∧
    ((State.reset.writeByte 0x301 2).writeByte 0x300 1).mem = [(0x300, 1), (0x301, 2)] := by decide

/-- `20_memory.md` R57: the first byte of digit A's glyph and the last byte of the font. -/
theorem test_font : State.reset.readByte 0x082 = 0xF0 ∧ State.reset.readByte 0x09F = 0x80 ∧
    State.reset.readByte 0x0A0 = 0 := by decide

/-! ## Loads, arithmetic, logic, shifts -/

/-- A1. -/
theorem test_ldImm : after (withRegs []) 0x6F55 (xFlagPc 15) = some (0x55, 0x55, 0x202) := by decide
/-- A2: no carry is written. -/
theorem test_addImm_wraps : after (withRegs [(3, 0xFF), (15, 0xAA)]) 0x7301 (xFlagPc 3) = some (0, 0xAA, 0x202) := by decide
/-- A4. -/
theorem test_addImm_vf : after (withRegs [(15, 0xFF)]) 0x7F02 (xFlagPc 15) = some (1, 1, 0x202) := by decide
/-- A5. -/
theorem test_ldReg : after (withRegs [(2, 0x7B), (15, 0xAA)]) 0x8120 (xFlagPc 1) = some (0x7B, 0xAA, 0x202) := by decide
/-- A6. -/
theorem test_or : after (withRegs [(1, 0x0F), (2, 0xF0), (15, 0xAA)]) 0x8121 (xFlagPc 1) = some (0xFF, 0xAA, 0x202) := by
  decide
/-- A7. -/
theorem test_and : after (withRegs [(1, 0x3C), (2, 0x0F), (15, 0xAA)]) 0x8122 (xFlagPc 1) = some (0x0C, 0xAA, 0x202) := by
  decide
/-- A8. -/
theorem test_xor : after (withRegs [(1, 0xFF), (2, 0x0F), (15, 0xAA)]) 0x8123 (xFlagPc 1) = some (0xF0, 0xAA, 0x202) := by
  decide
/-- A10. -/
theorem test_addReg_carry : after (withRegs [(1, 0xFF), (2, 1), (15, 0xAA)]) 0x8124 (xFlagPc 1) = some (0, 1, 0x202) := by
  decide
/-- A15: the flag overwrites the sum. -/
theorem test_addReg_vf : after (withRegs [(15, 1), (1, 1)]) 0x8F14 (xFlagPc 15) = some (0, 0, 0x202) := by decide
/-- A18: equality is no borrow. -/
theorem test_sub_equal : after (withRegs [(1, 5), (2, 5), (15, 0xAA)]) 0x8125 (xFlagPc 1) = some (0, 1, 0x202) := by decide
/-- A19. -/
theorem test_sub_borrow : after (withRegs [(1, 3), (2, 5), (15, 0xAA)]) 0x8125 (xFlagPc 1) = some (0xFE, 0, 0x202) := by
  decide
/-- A25. -/
theorem test_subn : after (withRegs [(1, 3), (2, 5), (15, 0xAA)]) 0x8127 (xFlagPc 1) = some (2, 1, 0x202) := by decide
/-- A26. -/
theorem test_subn_borrow : after (withRegs [(1, 5), (2, 3), (15, 0xAA)]) 0x8127 (xFlagPc 1) = some (0xFE, 0, 0x202) := by
  decide
/-- A28. -/
theorem test_shr : after (withRegs [(1, 5), (15, 0xAA)]) 0x8106 (xFlagPc 1) = some (2, 1, 0x202) := by decide
/-- A30: V2 is ignored. -/
theorem test_shr_ignores_y : after (withRegs [(1, 4), (2, 0xFF), (15, 0xAA)]) 0x8126 (xFlagPc 1) = some (2, 0, 0x202) := by
  decide
/-- A32. -/
theorem test_shl : after (withRegs [(1, 0x81), (15, 0xAA)]) 0x810E (xFlagPc 1) = some (2, 1, 0x202) := by decide
/-- A35. -/
theorem test_shl_vf : after (withRegs [(15, 0x80)]) 0x8F0E (xFlagPc 15) = some (1, 1, 0x202) := by decide

/-! ## Display -/

/-- P-D1, from one set pixel. -/
theorem test_cls : after ((withRegs [(15, 0xAA)]).setFb (Display.clear.flip 31 63)) 0x00E0
    (fun t => (t.pixel 31 63, xFlagPc 15 t)) = some (false, 0xAA, 0xAA, 0x202) := by decide

/-- The state of P-D4 and P-D5: one row of eight pixels at column 60 of row 5. -/
def edgeSprite : State := (withI 0x300 [(0, 60), (1, 5), (15, 0xAA)]).writeByte 0x300 0xFF

/-- P-D4: the row wraps. -/
theorem test_drw_wraps : after edgeSprite 0xD011
    (fun t => ([60, 63, 0, 3, 4].map (t.pixel 5), t.reg vf)) = some ([true, true, true, true, false], 0) := by decide

/-- P-D5: the row is clipped. -/
theorem test_drw_clips : after { edgeSprite with config := ⟨false, false, 0⟩ } 0xD011
    (fun t => ([60, 63, 0, 3, 59].map (t.pixel 5), t.reg vf)) = some ([true, true, false, false, false], 0) := by decide

/-! ## Control transfer -/

/-- CT1. -/
theorem test_jp : after (withRegs []) 0x1228 (·.pc) = some 0x228 := by decide
/-- CT4. -/
theorem test_jpV0 : after (withRegs [(0, 0xFF)]) 0xBFFF (·.pc) = some 0x10FE := by decide

/-- A machine with one live stack entry, as CT5 has it after its CALL. -/
def inSubroutine : State := { (withRegs []).setPc 0x300 with stack := (Vector.replicate 16 0).set 0 0x202, sp := 1 }

/-- A machine at 0x400 with `n` live entries. -/
def atDepth (n : Fin 17) : State := { (withRegs []).setPc 0x400 with sp := n }

/-- CT6: the 16th nested call. -/
theorem test_call : after (atDepth 15) 0x2500 (fun t => (t.stack[15], t.sp, t.pc)) = some (0x402, 16, 0x500) := by decide
/-- CT7: the 17th. -/
theorem test_call_overflow : after (atDepth 16) 0x2500 faultView =
    some (some ⟨.stackOverflow, 0x400, some 0x2500⟩, 0x400, .halted) := by decide
/-- CT5, its second half. -/
theorem test_ret : after inSubroutine 0x00EE (fun t => (t.sp, t.pc)) = some (0, 0x202) := by decide
/-- CT8. -/
theorem test_ret_underflow : after (withRegs []) 0x00EE faultView =
    some (some ⟨.stackUnderflow, 0x200, some 0x00EE⟩, 0x200, .halted) := by decide

/-! ## Skips -/

/-- K1, K2. -/
theorem test_seImm : after (withRegs [(1, 0x10)]) 0x3110 (·.pc) = some 0x204 ∧
    after (withRegs [(1, 0x11)]) 0x3110 (·.pc) = some 0x202 := by decide
/-- K3, K4. -/
theorem test_sneImm : after (withRegs [(1, 0x10)]) 0x4110 (·.pc) = some 0x202 ∧
    after (withRegs [(1, 0x11)]) 0x4110 (·.pc) = some 0x204 := by decide
/-- K5, K6. -/
theorem test_seReg : after (withRegs [(1, 7), (2, 7)]) 0x5120 (·.pc) = some 0x204 ∧
    after (withRegs [(1, 7), (2, 8)]) 0x5120 (·.pc) = some 0x202 := by decide
/-- K8, K9. -/
theorem test_sneReg : after (withRegs [(1, 7), (2, 8)]) 0x9120 (·.pc) = some 0x204 ∧
    after (withRegs [(1, 7)]) 0x9110 (·.pc) = some 0x202 := by decide
/-- K11, K14: the low 4 bits select the key. -/
theorem test_skp : after (withRegs [(1, 5)]) 0xE19E (·.pc) = some 0x202 ∧
    after ((withRegs [(1, 0x1A)]).setKey 0xA true) 0xE19E (·.pc) = some 0x204 := by decide
/-- K12, K13. -/
theorem test_sknp : after ((withRegs [(1, 5)]).setKey 5 true) 0xE1A1 (·.pc) = some 0x202 ∧
    after (withRegs [(1, 5)]) 0xE1A1 (·.pc) = some 0x204 := by decide

/-! ## Key wait and random number -/

/-- W1, with every key down: the levels are not looked at. -/
theorem test_ldVxK : after { withRegs [] with key := Vector.replicate 16 true } 0xF30A
    (fun t => (t.status, t.waitReg, t.pc, t.reg 3)) = some (.awaitingKey, 3, 0x200, 0) := by decide

/-- The state of W1. -/
def waiting : State := ((withRegs []).storeBytes 0x200 [0xF3, 0x0A]).beginWait 3

/-- W2: a step changes nothing. -/
theorem test_wait_holds : waiting.deliver .step = .next waiting := rfl
/-- W3. -/
theorem test_press_completes : afterEvent waiting (.keySet 7) (fun t => (t.keyDown 7, t.reg 3, t.pc, t.status)) =
    some (true, 7, 0x202, .running) := by decide
/-- W4: a key already down is no press. -/
theorem test_held_key_completes_nothing : afterEvent (waiting.setKey 7 true) (.keySet 7) (fun t => (t.status, t.pc)) =
    some (.awaitingKey, 0x200) := by decide
/-- W5, its first event. -/
theorem test_release_completes_nothing : afterEvent (waiting.setKey 7 true) (.keyClear 7)
    (fun t => (t.status, t.keyDown 7)) = some (.awaitingKey, false) := by decide
/-- RN1, for the drawn byte 0xB7. -/
theorem test_rnd_mask : (rndWith 0xB7 2 0x0F (withRegs [])).reg 2 = 0x07 := by decide
/-- RN2, and the draw is consumed, whatever the byte. -/
theorem test_rnd_counts : after (withRegs []) 0xC200 (·.draws) = some 1 := rfl

/-! ## Index register, memory transfers, timers -/

/-- M1. -/
theorem test_ldI : after (withRegs []) 0xA2F0 (·.i) = some 0x02F0 := by decide
/-- M3, M4. -/
theorem test_addI : after (withI 0x0FFF [(1, 1), (15, 0xAA)]) 0xF11E (fun t => (t.i, t.reg vf)) = some (0x1000, 0xAA) ∧
    after (withI 0xFFFF [(1, 2)]) 0xF11E (·.i) = some 1 := by decide
/-- M7, M8. -/
theorem test_ldF : after (withRegs [(1, 0x0F)]) 0xF129 (·.i) = some 0x9B ∧
    after (withRegs [(1, 0x1A)]) 0xF129 (·.i) = some 0x82 := by decide
/-- M9. -/
theorem test_ldB : after (withI 0x300 [(1, 0x9C)]) 0xF133 (fun t => [0x300, 0x301, 0x302].map t.readByte) =
    some [1, 5, 6] := by decide
/-- M13. -/
theorem test_ldB_out_of_bounds : after (withI 0xFFE []) 0xF133 faultView =
    some (some ⟨.outOfBounds, 0x200, some 0xF133⟩, 0x200, .halted) := by decide
/-- M14. -/
theorem test_ldMemVx : after (withI 0x300 [(0, 0x11), (1, 0x22), (2, 0x33)]) 0xF155
    (fun t => ([0x300, 0x301, 0x302].map t.readByte, t.i)) = some ([0x11, 0x22, 0], 0x300) := by decide
/-- M16: the whole range is checked before the first byte is written. -/
theorem test_ldMemVx_out_of_bounds : after (withI 0xFF1 [(0, 0x11)]) 0xFF55
    (fun t => (t.readByte 0xFF1, t.status)) = some (0, .halted) := by decide
/-- M17. -/
theorem test_ldVxMem : after ((withI 0x300 [(2, 0x77)]).storeBytes 0x300 [0xAA, 0xBB]) 0xF165
    (fun t => ([0, 1, 2].map t.reg, t.i)) = some ([0xAA, 0xBB, 0x77], 0x300) := by decide
/-- M18. -/
theorem test_ldVxMem_out_of_bounds : after (withI 0xFFF [(0, 1)]) 0xF165 (fun t => (t.reg 0, t.status)) =
    some (1, .halted) := by decide
/-- M20. -/
theorem test_ldVxDt : after ((withRegs []).setDt 0x1E) 0xF207 (fun t => (t.reg 2, t.dt)) = some (0x1E, 0x1E) := by decide
/-- M21. -/
theorem test_ldDtVx : after (withRegs [(2, 0x3C)]) 0xF215 (·.dt) = some 0x3C := by decide
/-- M22, M23. -/
theorem test_ldStVx : after (withRegs [(2, 5)]) 0xF218 (fun t => (t.st, t.soundActive)) = some (5, true) ∧
    after ((withRegs []).setSt 9) 0xF218 (fun t => (t.st, t.soundActive)) = some (0, false) := by decide

/-! ## Events -/

/-- T1, T5. -/
theorem test_tick : afterEvent ((withRegs []).setDt 2) .tick60 (fun t => (t.dt, t.st)) = some (1, 0) ∧
    afterEvent (((withRegs []).setDt 5).raise .outOfBounds none) .tick60 (·.dt) = some 5 := by decide
/-- X1. -/
theorem test_first_step_with_no_program : afterEvent State.reset .step faultView =
    some (some ⟨.unknownOpcode, 0x200, some 0x0000⟩, 0x200, .halted) := by decide
/-- X2, its first step. -/
theorem test_permissive_step : afterEvent (State.resetWith ⟨true, true, 0⟩) .step faultView =
    some (none, 0x202, .running) := by decide
/-- `70_reset_and_hazards.md` R256, three bytes. -/
theorem test_load : afterEvent State.reset (.loadProgram [1, 2, 3])
    (fun t => ([0x1FF, 0x200, 0x201, 0x202, 0x203].map t.readByte, t.pc)) = some ([0, 1, 2, 3, 0], 0x200) := by decide
/-- A laid-out event is taken before a step is. -/
theorem test_schedule : (match step { (withRegs []).setDt 2 with events := [.tick60, .step] } with
    | .next t => some (t.dt, t.pc, t.events) | _ => none) = some (1, 0x200, [.step]) := by decide

/-! ## Witnesses: concrete states that meet the hypotheses of the statements, clause by clause -/

theorem witness_ResetGivesEveryPieceItsResetValue : ({} : ConfigInputs).quirkResetVfOnShift = false := rfl

theorem witness_ResetRefusesTheUndefinedShiftQuirk :
    ({ quirkResetVfOnShift := true } : ConfigInputs).quirkResetVfOnShift = true := rfl

/-- Both clauses at their boundary: X4 and X5. -/
theorem witness_LoadProgramCopiesTheBytesOrIsTooLarge : State.reset.loadOpen = true ∧
    (List.replicate 3584 (0 : Byte)).length ≤ 3584 ∧ 3584 < (List.replicate 3585 (0 : Byte)).length :=
  ⟨rfl, by rw [List.length_replicate], by rw [List.length_replicate]; omega⟩

theorem witness_LoadIsRefusedAfterTheFirstStepOrLoad : (withRegs []).loadOpen = false ∧
    (∃ t, State.reset.status = .running ∧ State.reset.deliver .step = .next t) ∧
    (∃ t, State.reset.deliver (.loadProgram [1]) = .next t) ∧
    (∃ t, (∀ inputs, Event.tick60 ≠ .reset inputs) ∧ (withRegs []).deliver .tick60 = .next t) :=
  ⟨rfl, ⟨_, rfl, rfl⟩, ⟨_, rfl⟩, ⟨_, fun _ h => (by cases h), rfl⟩⟩

theorem witness_DecodeInvertsEncode :
    (Instr.jp 0xFFF).WellFormed ∧ (Instr.drw 15 15 15).WellFormed ∧ (Instr.shr 15 15).WellFormed := by decide

theorem witness_EncodeInvertsDecode : decode 0xFF65 = some (.ldVxMem 15) ∧ decode 0x1FFF = some (.jp 0xFFF) := by decide

theorem witness_TableRowsAreDisjointAndDecide : decode 0x8126 = some (.shr 1 2) := by decide

/-- Both clauses at their boundary. -/
theorem witness_FetchIsBigEndianAndBounded :
    (State.reset.setPc 0xFFE).pc.toNat ≤ 0xFFE ∧ 0xFFE < (State.reset.setPc 0xFFF).pc.toNat := by decide

/-- The five clauses, in their order. -/
theorem witness_StepEventFetchesDecodesAndExecutes :
    (waiting.status ≠ .running) ∧
    ((State.reset.setPc 0xFFF).status = .running ∧ (State.reset.setPc 0xFFF).fetch = none) ∧
    ((State.resetWith ⟨true, true, 0⟩).status = .running ∧ (State.resetWith ⟨true, true, 0⟩).fetch = some 0 ∧
      decode 0 = none ∧ (State.resetWith ⟨true, true, 0⟩).config.permissiveUnknownOpcode = true) ∧
    (State.reset.status = .running ∧ State.reset.fetch = some 0 ∧ State.reset.config.permissiveUnknownOpcode = false) ∧
    ((State.reset.storeBytes 0x200 [0x12, 0x28]).status = .running ∧
      (State.reset.storeBytes 0x200 [0x12, 0x28]).fetch = some 0x1228 ∧ decode 0x1228 = some (.jp 0x228)) := by decide

theorem witness_StepRunsTheDecodedInstruction :
    (State.reset.storeBytes 0x200 [0x12, 0x28]).nextEvent = .step ∧
    (State.reset.storeBytes 0x200 [0x12, 0x28]).status = .running ∧
    (State.reset.storeBytes 0x200 [0x12, 0x28]).fetch = some 0x1228 ∧ decode 0x1228 = some (.jp 0x228) := by decide

theorem witness_StepTakesTheOldestEvent :
    (∃ rest, ({ State.reset with events := [.tick60, .keySet 3] } : State).events = .tick60 :: rest) ∧
    State.reset.events = [] := ⟨⟨_, rfl⟩, rfl⟩

/-- A machine that a step halts: it returns with nothing on the stack. -/
def returning : State := (withRegs []).storeBytes 0x200 [0x00, 0xEE]

theorem witness_AFaultRecordsAndChangesNothingElse :
    ∃ t, returning.status = .running ∧ returning.deliver .step = .next t ∧ t.status = .halted := ⟨_, rfl, rfl, rfl⟩

/-- A cause of each kind, and none. -/
theorem witness_AStepHaltsExactlyOnTheListedCauses :
    (∃ t, returning.status = .running ∧ returning.deliver .step = .next t) ∧
    expectedFault returning = some .stackUnderflow ∧ expectedFault State.reset = some .unknownOpcode ∧
    expectedFault ((atDepth 16).storeBytes 0x400 [0x25, 0x00]) = some .stackOverflow ∧
    expectedFault ((withI 0xFFE []).storeBytes 0x200 [0xF1, 0x33]) = some .outOfBounds ∧
    expectedFault (State.reset.setPc 0xFFF) = some .outOfBounds ∧
    expectedFault (State.reset.storeBytes 0x200 [0x12, 0x28]) = none :=
  ⟨⟨_, rfl, rfl⟩, by decide⟩

theorem witness_HaltedIsFrozenButForTheKeys : (returning.raise .stackUnderflow (some 0x00EE)).status = .halted := rfl

/-- A transition of each of the four kinds. -/
theorem witness_StatusChangesOnlyByTheListedTransitions :
    (∃ t, ((withRegs []).storeBytes 0x200 [0xF3, 0x0A]).deliver .step = .next t ∧ t.status ≠ Status.running) ∧
    (∃ t, waiting.deliver (.keySet 7) = .next t ∧ t.status ≠ waiting.status) ∧
    (∃ t, returning.deliver .step = .next t ∧ t.status ≠ returning.status) ∧
    (∃ t, waiting.deliver (.reset {}) = .next t ∧ t.status ≠ waiting.status) :=
  ⟨⟨_, rfl, by decide⟩, ⟨_, rfl, by decide⟩, ⟨_, rfl, by decide⟩, ⟨_, rfl, by decide⟩⟩

/-- The inner hypothesis of the statements on ADD, SUB, SUBN, SHR, SHL, and the other registers of each frame. -/
theorem witness_FlagWritersWithAnotherDestination : (1 : Reg) ≠ vf ∧ (2 : Reg) ≠ 1 ∧ (2 : Reg) ≠ vf := by decide

theorem witness_VfIsAFlagForExactlySixInstructions :
    (∃ t, exec (.addReg 1 2) (withRegs []) = .next t ∧ (withRegs []).status = .running ∧
      writesFlag (.addReg 1 2) = true ∧ t.status = .running) ∧
    (∃ t, exec (.ldImm 1 2) (withRegs []) = .next t ∧ writesFlag (.ldImm 1 2) = false ∧ mayWrite (.ldImm 1 2) vf = false) :=
  ⟨⟨_, rfl, rfl, rfl, rfl⟩, ⟨_, rfl, rfl, rfl⟩⟩

theorem witness_RegistersChangeOnlyAsDestinations :
    ∃ t, exec (.ldVxMem 3) (withRegs []) = .next t ∧ mayWrite (.ldVxMem 3) 4 = false := ⟨_, rfl, by decide⟩

/-- P-D10 for the clause that raises; P-D9, and n = 0 of P-D11 at an I where one byte would raise, for the one that
completes; a sprite pixel that falls on a set pixel, and one that does not. -/
theorem witness_DrawInvertsTheCoveredPixelsAndReportsErasure :
    0xFFF < (withI 0xFFF []).i.toNat + 2 - 1 ∧ (withI 0xFFF []).i.toNat + 1 - 1 ≤ 0xFFF ∧
    (0 < 16 ∧ ((0 : Nat) = 0 ∨ (withI 0x1000 []).i.toNat + 0 - 1 ≤ 0xFFF) ∧ 0xFFF < (withI 0x1000 []).i.toNat + 1 - 1) ∧
    (∃ row col, SpriteCovers edgeSprite 0 1 1 row col ∧ edgeSprite.pixel row col = false) ∧
    (∃ row col, SpriteCovers { edgeSprite with fb := Display.clear.flip 5 63 } 0 1 1 row col ∧
      State.pixel { edgeSprite with fb := Display.clear.flip 5 63 } row col = true) :=
  ⟨by decide, by decide, by decide, ⟨5, 63, ⟨0, 3, by decide⟩, by decide⟩, ⟨5, 63, ⟨0, 3, by decide⟩, by decide⟩⟩

/-- The second DRW starts from the state the first one left, run from its address again. -/
theorem witness_DrawingTwiceRestoresTheDisplay :
    ∃ t u, (1 < 16 ∧ edgeSprite.i.toNat + 1 - 1 ≤ 0xFFF) ∧ exec (.drw 0 1 1) edgeSprite = .next t ∧
      t.reg 0 = edgeSprite.reg 0 ∧ t.reg 1 = edgeSprite.reg 1 ∧ t.i = edgeSprite.i ∧
      (∀ r < 1, t.readByte (edgeSprite.i.toNat + r) = edgeSprite.readByte (edgeSprite.i.toNat + r)) ∧
      t.config.quirkWrapSprites = edgeSprite.config.quirkWrapSprites ∧ exec (.drw 0 1 1) t = .next u :=
  ⟨_, _, by decide, rfl, by decide, by decide, rfl, fun _ _ => rfl, rfl, rfl⟩

/-- The largest target of each form. -/
theorem witness_JumpsSetPcAlone : (0xFFF : Word).toNat ≤ 0xFFF := by decide

theorem witness_CallPushesTheNextAddressOrOverflows : (atDepth 16).sp.val = 16 ∧ (atDepth 15).sp.val < 16 := by decide

theorem witness_ReturnPopsTheTopEntryOrUnderflows : (withRegs []).sp.val = 0 ∧ 0 < inSubroutine.sp.val := by decide

theorem witness_ReturnGoesBackBehindItsCall :
    ∃ t, (atDepth 15).sp.val < 16 ∧ exec (.call 0x500) (atDepth 15) = .next t ∧ t.sp = t.sp ∧
      ∀ j : Fin 16, j.val < t.sp.val → t.stack[j] = t.stack[j] := ⟨_, by decide, rfl, rfl, fun _ _ => rfl⟩

theorem witness_KeySkipsTestTheSelectedKey : (0xA : Key).val = ((withRegs [(1, 0x1A)]).reg 1).toNat % 16 := by decide

theorem witness_PairedSkipsAreComplements :
    (∃ t u, exec (.seImm 1 5) (withRegs []) = .next t ∧ exec (.sneImm 1 5) (withRegs []) = .next u) ∧
    (∃ t u, exec (.seReg 1 2) (withRegs []) = .next t ∧ exec (.sneReg 1 2) (withRegs []) = .next u) ∧
    (∃ t u, exec (.skp 1) (withRegs []) = .next t ∧ exec (.sknp 1) (withRegs []) = .next u) :=
  ⟨⟨_, _, rfl, rfl⟩, ⟨_, _, rfl, rfl⟩, ⟨_, _, rfl, rfl⟩⟩

theorem witness_KeyWaitSuspendsAtTheInstruction : waiting.status = .awaitingKey := rfl

/-- A press that ends the wait, a key already down, and a machine that does not wait. -/
theorem witness_KeyEventsMoveKeysAndAPressEndsTheWait :
    (waiting.status = .awaitingKey ∧ waiting.keyDown 15 = false) ∧ (waiting.setKey 15 true).keyDown 15 = true ∧
    State.reset.status ≠ .awaitingKey := by decide

theorem witness_TheRandomSourceReachesOnlyRnd :
    ∃ t, (∀ x nn, Instr.addImm 1 2 ≠ .rnd x nn) ∧ exec (.addImm 1 2) (withRegs []) = .next t :=
  ⟨_, fun _ _ h => (by cases h), rfl⟩

theorem witness_KeyLevelsReachOnlyTheKeySkips :
    ∃ t, (∀ x, Instr.ldVxK 1 ≠ .skp x ∧ Instr.ldVxK 1 ≠ .sknp x) ∧ exec (.ldVxK 1) (withRegs []) = .next t :=
  ⟨_, fun _ => ⟨fun h => (by cases h), fun h => (by cases h)⟩, rfl⟩

/-- M13 and M12. -/
theorem witness_DecimalStoreWritesThreeDigits : 0xFFF < (withI 0xFFE []).ea 2 ∧ (withI 0xFFD []).ea 2 ≤ 0xFFF := by decide

/-- M16 and M15. -/
theorem witness_RegisterStoreWritesV0ToVx : 0xFFF < (withI 0xFF1 []).ea 15 ∧ (withI 0xFF0 []).ea 15 ≤ 0xFFF := by decide

/-- M18 and M19. -/
theorem witness_RegisterLoadReadsV0ToVx : 0xFFF < (withI 0xFFF []).ea 1 ∧ (withI 0xFFF []).ea 0 ≤ 0xFFF := by decide

theorem witness_AStoreIsSeenByTheNextFetch :
    ∃ t, (withI 0xFF0 []).ea (15 : Reg) ≤ 0xFFF ∧ exec (.ldMemVx 15) (withI 0xFF0 []) = .next t ∧ (14 : Reg) < 15 ∧
      (0xFFE : Word).toNat = (withI 0xFF0 []).ea (14 : Reg) := ⟨_, by decide, rfl, by decide, by decide⟩

theorem witness_TimerInstructionsMoveOneByte :
    ∃ t, (∀ x, Instr.ldVxDt 2 ≠ .ldStVx x) ∧ exec (.ldVxDt 2) (withRegs []) = .next t := ⟨_, fun _ h => (by cases h), rfl⟩

theorem witness_TickCountsBothTimersDownToZero :
    (returning.raise .stackUnderflow (some 0x00EE)).status = .halted ∧ waiting.status ≠ .halted := by decide

theorem witness_ManyTicksReachZeroAndStay : State.reset.status ≠ .halted := by decide

theorem witness_OnlyLoadDtRaisesTheDelayTimer :
    ∃ t, step ((withRegs [(2, 0x3C)]).storeBytes 0x200 [0xF2, 0x15]) = .next t ∧
      ((withRegs [(2, 0x3C)]).storeBytes 0x200 [0xF2, 0x15]).dt.toNat < t.dt.toNat := ⟨_, rfl, by decide⟩

theorem witness_EachInstructionMovesPcAsListed :
    (∃ t, State.reset.status = .running ∧ exec .cls State.reset = .next t ∧ t.status ≠ .halted) ∧
    (∃ t, exec .ret State.reset = .next t ∧ t.status = .halted) ∧
    (∃ t, waiting.status = .awaitingKey ∧ waiting.deliver (.keySet 7) = .next t ∧ t.status = .running) :=
  ⟨⟨_, rfl, rfl, by decide⟩, ⟨_, rfl, rfl⟩, ⟨_, rfl, rfl, rfl⟩⟩

theorem witness_EachPieceOfStateHasItsOwnWriters :
    ∃ t, exec (.addReg 1 2) State.reset = .next t ∧ (∀ nnn, Instr.addReg 1 2 ≠ .call nnn) ∧
      (∀ x, Instr.addReg 1 2 ≠ .ldB x ∧ Instr.addReg 1 2 ≠ .ldMemVx x) ∧ (∀ x, Instr.addReg 1 2 ≠ .ldVxK x) ∧
      executionFault (.addReg 1 2) State.reset = none :=
  ⟨_, rfl, fun _ h => (by cases h), fun _ => ⟨fun h => (by cases h), fun h => (by cases h)⟩, fun _ h => (by cases h), rfl⟩

/-- Both sides of the clauses on the status and the record: DRW on its last legal byte, and one past it. -/
theorem witness_StatusAndRecordHaveTheirOwnWriters :
    executionFault (.drw 0 0 1) (withI 0xFFF []) = none ∧
    executionFault (.drw 0 0 2) (withI 0xFFF []) = some .outOfBounds := by decide

/-- A state with a byte listed, a live stack entry and a wait, that meets three of the invariants and steps on. -/
theorem witness_EveryStepKeepsTheInvariants :
    State.MemoryCanonical waiting ∧ State.PcBounded { waiting with sp := 16 } ∧ (∃ t, step waiting = .next t) :=
  ⟨by unfold State.MemoryCanonical; decide, by unfold State.PcBounded; decide, ⟨_, rfl⟩⟩

/-- The waiting machine agrees with itself. -/
theorem witness_EveryStepKeepsTheControlStateCoherent : State.Coherent waiting ∧ ∃ t, step waiting = .next t :=
  ⟨⟨by decide, fun _ h => (by cases h), fun _ => ⟨0xF30A, by decide, by decide⟩, fun h => (by cases h)⟩, ⟨_, rfl⟩⟩

/-- The open load port, with a key down. -/
theorem witness_EveryStepKeepsTheLoadWindow :
    State.LoadWindow (State.reset.setKey 3 true) ∧ (State.reset.setKey 3 true).loadOpen = true ∧
      ∃ t, step (State.reset.setKey 3 true) = .next t := ⟨fun _ => rfl, rfl, ⟨_, rfl⟩⟩

theorem witness_EveryReachableStateMeetsTheInvariants : Reachable State.reset := Reachable.reset Config.default []

end Sys2Proof.Tests
end

/-! The proofs about the state as a whole: what a reset leaves (`10_state.md` R41), and where each instruction
leaves PC (`10_state.md` R24). -/

namespace Sys2Proof.Machine

/-! ## Memory after reset -/

/-- Outside the font every byte of memory is 0 after reset (`10_state.md` R37). -/
theorem resetByte_outside_font {a : Nat} (h : a < 0x050 ∨ 0x09F < a) : resetByte a = 0 := by
  unfold resetByte Config.fontBase
  split
  · have hlen : fontTable.length ≤ a - 0x050 := by
      show 80 ≤ a - 0x050
      omega
    rw [List.getElem?_eq_none hlen]
    rfl
  · rfl

/-- From `FONT_BASE` on, memory holds the font table after reset (`20_memory.md` R57). -/
theorem resetByte_font {k : Nat} (h : k < fontTable.length) : resetByte (Config.fontBase + k) = fontTable[k] := by
  simp [resetByte, h]

theorem map_resetByte_font : (List.range 80).map (fun k => resetByte (0x050 + k)) = fontTable := by
  refine List.ext_getElem rfl fun k _ hk => ?_
  rw [List.getElem_map, List.getElem_range]
  exact resetByte_font hk

/-! ## The reset event -/

/-- The configuration that the inputs put in force when the reset can sample them (`00_scope.md` R7). -/
def sampledConfig (inputs : ConfigInputs) : Config :=
  ⟨inputs.quirkWrapSprites, inputs.permissiveUnknownOpcode, inputs.randomSeed⟩

theorem sampleConfig_eq {inputs : ConfigInputs} (h : inputs.quirkResetVfOnShift = false) :
    sampleConfig inputs = some (sampledConfig inputs) := by
  simp [sampleConfig, sampledConfig, h]

/-- A reset that can sample its inputs answers the reset state; only the events to come stay. -/
theorem State.deliver_reset (s : State) {inputs : ConfigInputs} (h : inputs.quirkResetVfOnShift = false) :
    s.deliver (.reset inputs) = .next { State.resetWith (sampledConfig inputs) with events := s.events } := by
  simp [State.deliver, State.resetEvent, sampleConfig_eq h]

@[simp] theorem State.reg_resetWith (config : Config) (r : Reg) : (State.resetWith config).reg r = 0 := by
  simp [State.reg, State.resetWith]

@[simp] theorem State.pixel_resetWith (config : Config) (row : Fin 32) (col : Fin 64) :
    (State.resetWith config).pixel row col = false := by
  simp [State.pixel, Display.pixel, State.resetWith]

@[simp] theorem State.keyDown_resetWith (config : Config) (k : Key) :
    (State.resetWith config).keyDown k = false := by
  simp [State.keyDown, State.resetWith]

theorem State.stack_resetWith (config : Config) (j : Fin 16) : (State.resetWith config).stack[j] = 0 := by
  simp [State.resetWith]

/-- Settles O1: the reset state holds each value of the table; its memory lists no byte, so it reads as the reset
contents do. -/
theorem resetGivesEveryPieceItsResetValue : Obligations.ResetGivesEveryPieceItsResetValue := by
  intro s inputs h
  have hreg := State.reg_resetWith (sampledConfig inputs)
  have hstack := State.stack_resetWith (sampledConfig inputs)
  have hpixel := State.pixel_resetWith (sampledConfig inputs)
  have hkey := State.keyDown_resetWith (sampledConfig inputs)
  exact ⟨_, s.deliver_reset h, hreg, rfl, rfl, rfl, rfl, rfl, hstack, fun _ _ ha => resetByte_outside_font ha,
    map_resetByte_font, hpixel, hkey, rfl, rfl, rfl, rfl, rfl⟩

/-! ## PC and STATUS across the shared operations -/

section
variable {s : State}

@[simp] theorem State.storeBytes_pc (a : Nat) (bs : List Byte) : (s.storeBytes a bs).pc = s.pc := by
  rw [State.storeBytes_eq]

@[simp] theorem State.storeBytes_status (a : Nat) (bs : List Byte) : (s.storeBytes a bs).status = s.status := by
  rw [State.storeBytes_eq]

@[simp] theorem State.loadRegs_pc (rs : List Reg) : (s.loadRegs rs).pc = s.pc := by
  rw [State.loadRegs_eq]

@[simp] theorem State.loadRegs_status (rs : List Reg) : (s.loadRegs rs).status = s.status := by
  rw [State.loadRegs_eq]

/-- A skip goes to pc + 4 or pc + 2 as the condition that its test decides holds or not. -/
theorem State.skipIf_pc {c : Bool} {p : Prop} [Decidable p] (h : c = true ↔ p) :
    (s.skipIf c).pc = if p then s.pc + 4 else s.pc + 2 := by
  by_cases hp : p
  · simp [h.mpr hp, hp]
  · have hc : c = false := Bool.eq_false_iff.mpr (mt h.mp hp)
    simp [hc, hp]

/-! ## An execution raises its one fault, or completes -/

/-- An execution that has its fault raises it and does nothing else (`60_exceptions.md` R213). -/
theorem exec_of_executionFault {i : Instr} {kind : FaultKind} (h : executionFault i s = some kind) :
    exec i s = .next (s.raiseAt kind i) := by
  cases i with
  | call nnn =>
    obtain ⟨hsp, rfl⟩ : s.sp.val = 16 ∧ FaultKind.stackOverflow = kind := by simpa [executionFault] using h
    obtain ⟨-, hpush⟩ | ⟨hlt, -⟩ := s.push_cases (s.pc + 2)
    · show execCall nnn s = _
      rw [execCall, hpush]
    · omega
  | ret =>
    obtain ⟨hsp, rfl⟩ : s.sp.val = 0 ∧ FaultKind.stackUnderflow = kind := by simpa [executionFault] using h
    obtain ⟨-, hpop⟩ | ⟨hpos, -⟩ := s.pop_cases
    · show execRet s = _
      rw [execRet, hpop]
    · omega
  | drw x y n =>
    obtain ⟨⟨hn, hi⟩, rfl⟩ : (0 < n ∧ 0xFFF < s.i.toNat + n - 1) ∧ FaultKind.outOfBounds = kind := by
      simpa [executionFault] using h
    have hr : ¬ s.reaches (n - 1) = true := by
      rw [reaches_iff]
      omega
    exact if_pos ⟨hn, hr⟩
  | ldB x =>
    obtain ⟨hi, rfl⟩ : 0xFFF < s.i.toNat + 2 ∧ FaultKind.outOfBounds = kind := by simpa [executionFault] using h
    exact if_neg (mt (reaches_iff 2).mp (by omega))
  | ldMemVx x =>
    obtain ⟨hi, rfl⟩ : 0xFFF < s.i.toNat + x.val ∧ FaultKind.outOfBounds = kind := by simpa [executionFault] using h
    exact if_neg (mt (reaches_iff x.val).mp (by omega))
  | ldVxMem x =>
    obtain ⟨hi, rfl⟩ : 0xFFF < s.i.toNat + x.val ∧ FaultKind.outOfBounds = kind := by simpa [executionFault] using h
    exact if_neg (mt (reaches_iff x.val).mp (by omega))
  | _ => cases h

/-- An execution without a fault leaves PC where `10_state.md` R24 lists it; its status stays, unless it is the key wait. -/
theorem exec_of_no_executionFault {i : Instr} (h : executionFault i s = none) :
    ∃ t, exec i s = .next t ∧ t.pc = nextPc i s ∧
      (t.status = s.status ∨ (∃ x, i = .ldVxK x) ∧ t.status = .awaitingKey) := by
  cases i with
  | call nnn =>
    have hsp : s.sp.val ≠ 16 := by simpa [executionFault] using h
    obtain ⟨hfull, -⟩ | ⟨-, t, hpush, -, -, -, ht⟩ := s.push_cases (s.pc + 2)
    · exact absurd hfull hsp
    · have hexec : execCall nnn s = .next (t.setPc nnn) := by rw [execCall, hpush]
      exact ⟨_, hexec, rfl, .inl (by rw [State.setPc_status, ht])⟩
  | ret =>
    have hsp : s.sp.val ≠ 0 := by simpa [executionFault] using h
    obtain ⟨hempty, -⟩ | ⟨-, a, t, hpop, -, ha, ht⟩ := s.pop_cases
    · exact absurd hempty hsp
    · have hexec : execRet s = .next (t.setPc a) := by rw [execRet, hpop]
      exact ⟨_, hexec, ha ⟨s.sp.val - 1, by omega⟩ rfl, .inl (by rw [State.setPc_status, ht])⟩
  | drw x y n =>
    have hi : ¬ (0 < n ∧ 0xFFF < s.i.toNat + n - 1) := by simpa [executionFault] using h
    have hr : ¬ (n > 0 ∧ ¬ s.reaches (n - 1) = true) := by
      rw [reaches_iff]
      omega
    exact ⟨_, if_neg hr, rfl, .inl rfl⟩
  | ldB x =>
    have hi : ¬ 0xFFF < s.i.toNat + 2 := by simpa [executionFault] using h
    exact ⟨_, if_pos ((reaches_iff 2).mpr (by omega)), by simp [nextPc], .inl (by simp)⟩
  | ldMemVx x =>
    have hi : ¬ 0xFFF < s.i.toNat + x.val := by simpa [executionFault] using h
    exact ⟨_, if_pos ((reaches_iff x.val).mpr (by omega)), by simp [nextPc], .inl (by simp)⟩
  | ldVxMem x =>
    have hi : ¬ 0xFFF < s.i.toNat + x.val := by simpa [executionFault] using h
    exact ⟨_, if_pos ((reaches_iff x.val).mpr (by omega)), by simp [nextPc], .inl (by simp)⟩
  | seImm x nn => exact ⟨_, rfl, State.skipIf_pc beq_iff_eq, .inl rfl⟩
  | sneImm x nn => exact ⟨_, rfl, State.skipIf_pc bne_iff_ne, .inl rfl⟩
  | seReg x y => exact ⟨_, rfl, State.skipIf_pc beq_iff_eq, .inl rfl⟩
  | sneReg x y => exact ⟨_, rfl, State.skipIf_pc bne_iff_ne, .inl rfl⟩
  | skp x => exact ⟨_, rfl, State.skipIf_pc Iff.rfl, .inl rfl⟩
  | sknp x => exact ⟨_, rfl, State.skipIf_pc (iff_of_eq (Bool.not_eq_true' _)), .inl rfl⟩
  | ldVxK x => exact ⟨_, rfl, rfl, .inr ⟨⟨x, rfl⟩, rfl⟩⟩
  | jp nnn | jpV0 nnn => exact ⟨_, rfl, rfl, .inl rfl⟩
  | cls | ldImm x nn | addImm x nn | ldReg x y | or x y | and x y | xor x y | addReg x y | sub x y | shr x y
  | subn x y | shl x y | ldI nnn | rnd x nn | ldVxDt x | ldDtVx x | ldStVx x | addI x | ldF x =>
    exact ⟨_, rfl, rfl, .inl rfl⟩

/-- A waiting machine that a press sets running stands at pc + 2: a key that was already down ends no wait
(`44_keywait_random.md` R151). -/
theorem State.keySet_pc_of_ends_wait {k : Key} (hw : s.status = .awaitingKey) (hr : (s.keySet k).status = .running) :
    (s.keySet k).pc = s.pc + 2 := by
  unfold State.keySet at hr ⊢
  split at hr
  · rename_i hpress
    rw [if_pos hpress]
    rfl
  · have hrun : s.status = .running := hr
    rw [hw] at hrun
    cases hrun

end

/-- Settles O52: an execution raises its one fault, which keeps PC, or completes at the PC that the rule lists. -/
theorem eachInstructionMovesPcAsListed : Obligations.EachInstructionMovesPcAsListed := by
  refine ⟨fun i s t hs ht => ?_, fun s t k hw ht hr => ?_⟩
  · cases hf : executionFault i s with
    | some kind =>
      obtain rfl : s.raiseAt kind i = t := by simpa [exec_of_executionFault hf] using ht
      exact ⟨fun hne => absurd rfl hne, fun _ => rfl⟩
    | none =>
      obtain ⟨u, hu, hpc, hstatus⟩ := exec_of_no_executionFault hf
      obtain rfl : u = t := by simpa [hu] using ht
      have hne : u.status ≠ .halted := by
        obtain h | ⟨-, h⟩ := hstatus <;> simp [h, hs]
      exact ⟨fun _ => hpc, fun hh => absurd hh hne⟩
  · obtain rfl : s.keySet k = t := by simpa [State.deliver] using ht
    exact State.keySet_pc_of_ends_wait hw hr

end Sys2Proof.Machine

/-! The proofs about memory: the instruction fetch (`20_memory.md` R50). -/

namespace Sys2Proof

/-- The first byte of a word is its high byte (`20_memory.md` R50). -/
theorem toNat_wordOfBytes (hi lo : Byte) : (wordOfBytes hi lo).toNat = 256 * hi.toNat + lo.toNat := by
  have hlo : lo.toNat < 2 ^ 8 := lo.isLt
  rw [wordOfBytes, BitVec.toNat_append, Nat.shiftLeft_eq, Nat.mul_comm, ← Nat.two_pow_add_eq_or_of_lt hlo]

end Sys2Proof

namespace Sys2Proof.Machine

/-- A step whose fetch fails executes no instruction and records no word (`20_memory.md` R50). -/
theorem State.runInstruction_of_fetch_none {s : State} (h : s.fetch = none) :
    s.runInstruction = .next (s.raise .outOfBounds none) := by
  rw [State.runInstruction, h]

/-- Settles O10: up to 0xFFE both bytes lie inside MEM and form the word; above it the fetch has none to give and raises. -/
theorem fetchIsBigEndianAndBounded : Obligations.FetchIsBigEndianAndBounded := by
  intro s
  refine ⟨fun hle => ?_, fun hgt => ?_⟩
  · exact ⟨_, State.fetch_of_le hle, toNat_wordOfBytes _ _⟩
  · have hnone : s.fetch = none := State.fetch_of_gt hgt
    exact ⟨hnone, State.runInstruction_of_fetch_none hnone⟩

end Sys2Proof.Machine

/-! The proofs about the encoding: the opcode table and the decoder agree (`30_encoding.md` R74 to R76). -/

namespace Sys2Proof

section
variable {w : Word} {row : OpcodeRow}

/-! ## A word is its fields put together (`30_encoding.md` R71, R72) -/

theorem opField_append (w : Word) : opField w ++ w.extractLsb' 0 12 = w :=
  (BitVec.extractLsb'_append_extractLsb'_eq_extractLsb' (h := by decide)).trans BitVec.extractLsb'_eq_self

theorem encodeNNN_fields (w : Word) : encodeNNN (opField w) (nnnField w) = w := by
  have hnnn : (nnnField w).setWidth 12 = w.extractLsb' 0 12 := BitVec.setWidth_setWidth_of_le _ (by decide)
  rw [encodeNNN, hnnn, opField_append]

theorem encodeXNN_fields (w : Word) : encodeXNN (opField w) (xField w) (nnField w) = w := by
  have hxnn : regBits (xField w) ++ nnField w = w.extractLsb' 0 12 :=
    BitVec.extractLsb'_append_extractLsb'_eq_extractLsb' (h := by decide)
  rw [encodeXNN, hxnn, opField_append]

theorem encodeXYN_fields (w : Word) : encodeXYN (opField w) (xField w) (yField w) (nField w) = w := by
  have hyn : regBits (yField w) ++ nField w = nnField w :=
    BitVec.extractLsb'_append_extractLsb'_eq_extractLsb' (h := by decide)
  rw [encodeXYN, hyn]
  exact encodeXNN_fields w

theorem encodeNNN_eq {op : BitVec 4} (hop : (opField w).toNat = op.toNat) : encodeNNN op (nnnField w) = w := by
  rw [← BitVec.eq_of_toNat_eq hop, encodeNNN_fields]

theorem encodeXNN_eq {op : BitVec 4} (hop : (opField w).toNat = op.toNat) :
    encodeXNN op (xField w) (nnField w) = w := by
  rw [← BitVec.eq_of_toNat_eq hop, encodeXNN_fields]

/-- Format X: the byte `nn` is the sub-code. -/
theorem encodeXNN_sub_eq {op : BitVec 4} {sub : Byte} (hop : (opField w).toNat = op.toNat)
    (hsub : (nnField w).toNat = sub.toNat) : encodeXNN op (xField w) sub = w := by
  rw [← BitVec.eq_of_toNat_eq hsub, encodeXNN_eq hop]

theorem encodeXYN_eq {op n : BitVec 4} (hop : (opField w).toNat = op.toNat) (hn : (nField w).toNat = n.toNat) :
    encodeXYN op (xField w) (yField w) n = w := by
  rw [← BitVec.eq_of_toNat_eq hop, ← BitVec.eq_of_toNat_eq hn, encodeXYN_fields]

/-! ## Decoding drops no bit of the word -/

section
variable {i : Instr}

theorem encode_of_decodeFamily0 (h : decodeFamily0 w = some i) : encode i = w := by
  unfold decodeFamily0 at h
  split at h <;> cases h <;> exact (BitVec.eq_of_toNat_eq ‹_›).symm

theorem encode_of_decodeFamily8 (hop : (opField w).toNat = 8) (h : decodeFamily8 w = some i) : encode i = w := by
  unfold decodeFamily8 at h
  split at h <;> cases h <;> exact encodeXYN_eq hop ‹_›

theorem encode_of_decodeFamilyE (hop : (opField w).toNat = 0xE) (h : decodeFamilyE w = some i) : encode i = w := by
  unfold decodeFamilyE at h
  split at h <;> cases h <;> exact encodeXNN_sub_eq hop ‹_›

theorem encode_of_decodeFamilyF (hop : (opField w).toNat = 0xF) (h : decodeFamilyF w = some i) : encode i = w := by
  unfold decodeFamilyF at h
  split at h <;> cases h <;> exact encodeXNN_sub_eq hop ‹_›

theorem encode_of_decode (h : decode w = some i) : encode i = w := by
  unfold decode at h
  split at h
  case h_1 => exact encode_of_decodeFamily0 h
  case h_9 hop => exact encode_of_decodeFamily8 hop h
  case h_15 hop => exact encode_of_decodeFamilyE hop h
  case h_16 hop => exact encode_of_decodeFamilyF hop h
  case h_6 hop | h_10 hop =>
    obtain ⟨hn, hi⟩ := Option.ite_none_right_eq_some.mp h
    cases hi
    exact encodeXYN_eq hop (congrArg BitVec.toNat hn)
  case h_14 hop =>
    cases h
    exact encodeXYN_eq hop (by simp)
  case h_2 hop | h_3 hop | h_11 hop | h_12 hop =>
    cases h
    exact encodeNNN_eq hop
  case h_4 hop | h_5 hop | h_7 hop | h_8 hop | h_13 hop =>
    cases h
    exact encodeXNN_eq hop
  case h_17 => cases h

end

/-! ## An instruction has a row of the table, and a word that decodes selects its instruction's row -/

theorem row_mem_opcodeTable (i : Instr) : i.row ∈ opcodeTable := by
  cases i <;> exact List.mem_of_elem_eq_true rfl

/-- By the format of the instruction (`30_encoding.md` R72). -/
theorem row_selects_encode (i : Instr) : i.row.selects (encode i) = true := by
  cases i with
  | cls | ret => rfl
  | jp nnn | call nnn | ldI nnn | jpV0 nnn => exact Laws.selects_nnn (by decide)
  | seImm x nn | sneImm x nn | ldImm x nn | addImm x nn | rnd x nn => exact Laws.selects_xnn (by decide)
  | drw x y n => exact Laws.selects_xyn (by decide)
  | seReg x y | ldReg x y | or x y | and x y | xor x y | addReg x y | sub x y | shr x y | subn x y | shl x y
  | sneReg x y => exact Laws.selects_xy (by decide)
  | skp x | sknp x | ldVxDt x | ldVxK x | ldDtVx x | ldStVx x | addI x | ldF x | ldB x | ldMemVx x | ldVxMem x =>
    exact Laws.selects_x (by decide)

theorem row_selects_of_decode {i : Instr} (h : decode w = some i) : i.row.selects w = true :=
  encode_of_decode h ▸ row_selects_encode i

/-! ## The rows are disjoint -/

/-- Two rows that differ in a bit that both masks have. -/
def OpcodeRow.Differ (p q : OpcodeRow) : Prop := p.bits &&& q.mask ≠ q.bits &&& p.mask

theorem OpcodeRow.selects_iff : row.selects w = true ↔ w &&& row.mask = row.bits := beq_iff_eq

theorem OpcodeRow.Differ.not_both_select {p q : OpcodeRow} (h : p.Differ q) (w : Word) :
    ¬ (p.selects w = true ∧ q.selects w = true) := by
  rintro ⟨hp, hq⟩
  rw [OpcodeRow.selects_iff] at hp hq
  apply h
  rw [← hp, ← hq, BitVec.and_assoc, BitVec.and_assoc, BitVec.and_comm p.mask]

theorem opcodeTable_pairwise_differ : opcodeTable.Pairwise OpcodeRow.Differ := by
  unfold OpcodeRow.Differ
  decide

/-! ## A word that selects a row decodes -/

/-- Two words that agree in the bits that decoding reads in their family (`30_encoding.md` R75). -/
structure DecodedAlike (w v : Word) : Prop where
  op : opField w = opField v
  whole : (opField v).toNat = 0 → w = v
  n : (opField v).toNat ∈ [5, 8, 9] → nField w = nField v
  nn : (opField v).toNat ∈ [0xE, 0xF] → nnField w = nnField v

section
variable {v : Word}

theorem decodeFamily8_eq_none_congr (h : nField w = nField v) :
    decodeFamily8 w = none ↔ decodeFamily8 v = none := by
  unfold decodeFamily8
  rw [h]
  split <;> simp

theorem decodeFamilyE_eq_none_congr (h : nnField w = nnField v) :
    decodeFamilyE w = none ↔ decodeFamilyE v = none := by
  unfold decodeFamilyE
  rw [h]
  split <;> simp

theorem decodeFamilyF_eq_none_congr (h : nnField w = nnField v) :
    decodeFamilyF w = none ↔ decodeFamilyF v = none := by
  unfold decodeFamilyF
  rw [h]
  split <;> simp

/-- Decoding tells a legal word from an illegal one by those bits alone. -/
theorem DecodedAlike.decode_eq_none_iff (h : DecodedAlike w v) : decode w = none ↔ decode v = none := by
  unfold decode
  rw [h.op]
  split
  case h_1 hop => rw [h.whole hop]
  case h_6 hop | h_10 hop => simp [h.n (by simp [hop])]
  case h_9 hop => exact decodeFamily8_eq_none_congr (h.n (by simp [hop]))
  case h_15 hop => exact decodeFamilyE_eq_none_congr (h.nn (by simp [hop]))
  case h_16 hop => exact decodeFamilyF_eq_none_congr (h.nn (by simp [hop]))
  all_goals simp

end

/-- The mask of every row covers the bits that decoding reads in the row's family. -/
theorem opcodeTable_masks : ∀ row ∈ opcodeTable, opField row.mask = 15 ∧
    ((opField row.bits).toNat = 0 → row.mask = 0xFFFF) ∧
    ((opField row.bits).toNat ∈ [5, 8, 9] → nField row.mask = 15) ∧
    ((opField row.bits).toNat ∈ [0xE, 0xF] → nnField row.mask = 255) := by decide

theorem opcodeTable_decode_bits : ∀ row ∈ opcodeTable, decode row.bits ≠ none := by decide

theorem decodedAlike_of_selects (hrow : row ∈ opcodeTable) (hsel : row.selects w = true) :
    DecodedAlike w row.bits := by
  obtain ⟨hop, hwhole, hn, hnn⟩ := opcodeTable_masks row hrow
  have hw : w &&& row.mask = row.bits := OpcodeRow.selects_iff.mp hsel
  refine ⟨?_, fun h => ?_, fun h => ?_, fun h => ?_⟩
  · rw [← hw, opField, opField, BitVec.extractLsb'_and]
    exact (hop ▸ Laws.and_all_nibble _).symm
  · rw [← hw, hwhole h]
    exact BitVec.and_allOnes.symm
  · rw [← hw, nField, nField, BitVec.extractLsb'_and]
    exact (hn h ▸ Laws.and_all_nibble _).symm
  · rw [← hw, nnField, nnField, BitVec.extractLsb'_and]
    exact (hnn h ▸ Laws.and_all_byte _).symm

theorem decode_ne_none_of_selects (hrow : row ∈ opcodeTable) (hsel : row.selects w = true) : decode w ≠ none :=
  mt (decodedAlike_of_selects hrow hsel).decode_eq_none_iff.mp (opcodeTable_decode_bits row hrow)

end

/-- Settles O8: two rows differ in a bit of both masks; a row's mask covers the bits that decoding reads, so a word that
selects a row decodes as the row's own bits do; a word that decodes is the word of its instruction, which selects its
row. -/
theorem tableRowsAreDisjointAndDecide : Obligations.TableRowsAreDisjointAndDecide := by
  refine ⟨rfl, ?disjoint, ?illegal, ?legal⟩
  case disjoint => exact opcodeTable_pairwise_differ.imp OpcodeRow.Differ.not_both_select
  case legal => exact fun w i h => ⟨row_mem_opcodeTable i, row_selects_of_decode h⟩
  case illegal =>
    refine fun w => ⟨fun h row hrow => ?_, fun h => ?_⟩
    · exact Bool.eq_false_iff.mpr fun hsel => decode_ne_none_of_selects hrow hsel h
    · refine Option.eq_none_iff_forall_ne_some.mpr fun i hi => ?_
      exact Bool.eq_false_iff.mp (h i.row (row_mem_opcodeTable i)) (row_selects_of_decode hi)

end Sys2Proof

/-! The proofs about loads, arithmetic, logic and shifts: an instruction that writes its result alone, one that writes
a result and then the flag (`40_alu.md` R101), and the values of results and flags as numbers. -/

namespace Sys2Proof.Machine

/-! ## What the two shapes of instruction do to the state -/

/-- A result written to Vx and PC moved on: Vx holds it, and nothing else but PC changes. -/
theorem State.setReg_advance_effect (s : State) (x : Reg) (b : Byte) :
    (s.setReg x b).advance.reg x = b ∧ (∀ r, r ≠ x → (s.setReg x b).advance.reg r = s.reg r) ∧
    (s.setReg x b).advance = { s with v := (s.setReg x b).advance.v, pc := s.pc + 2 } ∧
    SameBytes s (s.setReg x b).advance :=
  ⟨State.reg_setReg_same x b, fun _ hr => State.reg_setReg_ne b hr, rfl, fun _ => rfl⟩

/-- A result and then a flag written and PC moved on: VF holds the flag, Vx the result unless it is VF, and nothing else
but PC changes (`40_alu.md` R101). -/
theorem State.setResultFlag_advance_effect (s : State) (x : Reg) (b : Byte) (f : Bool) :
    (s.setResultFlag x b f).advance.reg vf = flagByte f ∧
    (x ≠ vf → (s.setResultFlag x b f).advance.reg x = b) ∧
    (∀ r, r ≠ x → r ≠ vf → (s.setResultFlag x b f).advance.reg r = s.reg r) ∧
    (s.setResultFlag x b f).advance = { s with v := (s.setResultFlag x b f).advance.v, pc := s.pc + 2 } ∧
    SameBytes s (s.setResultFlag x b f).advance := by
  refine ⟨State.reg_setReg_same vf _, fun hx => ?_, fun r hr hvf => ?_, rfl, fun _ => rfl⟩
  · exact (State.reg_setReg_ne _ hx).trans (State.reg_setReg_same x b)
  · exact (State.reg_setReg_ne _ hvf).trans (State.reg_setReg_ne b hr)

/-! ## Results and flags as numbers -/

theorem toNat_byte_sub (a b : Byte) : (a - b).toNat = (a.toNat + 256 - b.toNat) % 256 := by
  have hb : b.toNat < 2 ^ 8 := b.isLt
  rw [BitVec.toNat_sub]
  omega

theorem toNat_byte_shiftRight_one (a : Byte) : (a >>> 1).toNat = a.toNat / 2 := by
  rw [BitVec.toNat_ushiftRight, Nat.shiftRight_eq_div_pow, Nat.pow_one]

theorem toNat_byte_shiftLeft_one (a : Byte) : (a <<< 1).toNat = 2 * a.toNat % 256 := by
  rw [BitVec.toNat_shiftLeft, Nat.shiftLeft_eq, Nat.pow_one, Nat.mul_comm]

theorem toNat_flagByte (f : Bool) : (flagByte f).toNat = f.toNat := by
  cases f <;> rfl

theorem flagByte_decide (p : Prop) [Decidable p] : flagByte (decide p) = if p then 1 else 0 := by
  simp [flagByte]

theorem toNat_shiftOutRight (a : Byte) : (shiftOutRight a).toNat = a.toNat % 2 := by
  rw [shiftOutRight, BitVec.getLsbD, Nat.toNat_testBit, Nat.pow_zero, Nat.div_one]

theorem toNat_shiftOutLeft (a : Byte) : (shiftOutLeft a).toNat = a.toNat / 128 := by
  have ha : a.toNat < 2 ^ 8 := a.isLt
  rw [shiftOutLeft, BitVec.getLsbD, Nat.toNat_testBit]
  omega

/-! ## The obligations -/

/-- Settles O21: each writes its result alone, and bit b of the result is the operation on the bits b. -/
theorem logicWorksBitByBitAndKeepsTheFlag : Obligations.LogicWorksBitByBitAndKeepsTheFlag := by
  refine fun s x y => ⟨?or, ?and, ?xor⟩
  case or =>
    obtain ⟨hx, hrest⟩ := s.setReg_advance_effect x (s.reg x ||| s.reg y)
    exact ⟨_, rfl, fun b _ => by rw [hx, BitVec.getLsbD_or], hrest⟩
  case and =>
    obtain ⟨hx, hrest⟩ := s.setReg_advance_effect x (s.reg x &&& s.reg y)
    exact ⟨_, rfl, fun b _ => by rw [hx, BitVec.getLsbD_and], hrest⟩
  case xor =>
    obtain ⟨hx, hrest⟩ := s.setReg_advance_effect x (s.reg x ^^^ s.reg y)
    exact ⟨_, rfl, fun b _ => by rw [hx, BitVec.getLsbD_xor], hrest⟩

/-- Settles O22: the flag written last is the carry, and the result is the sum of bytes. -/
theorem addRegistersSetsCarry : Obligations.AddRegistersSetsCarry := by
  intro s x y
  obtain ⟨hvf, hx, hrest⟩ :=
    s.setResultFlag_advance_effect x (s.reg x + s.reg y) (carryFlag (s.reg x) (s.reg y))
  exact ⟨_, rfl, hvf.trans (flagByte_decide _), fun hne => by rw [hx hne, BitVec.toNat_add], hrest⟩

/-- Settles O23: the flag written last is not-borrow of Vx - Vy, and the result is the difference of bytes. -/
theorem subtractSetsNotBorrow : Obligations.SubtractSetsNotBorrow := by
  intro s x y
  obtain ⟨hvf, hx, hrest⟩ :=
    s.setResultFlag_advance_effect x (s.reg x - s.reg y) (notBorrowFlag (s.reg x) (s.reg y))
  exact ⟨_, rfl, hvf.trans (flagByte_decide _), fun hne => by rw [hx hne, toNat_byte_sub], hrest⟩

/-- Settles O24: SUB's result and flag with the operands reversed. -/
theorem reverseSubtractSetsNotBorrow : Obligations.ReverseSubtractSetsNotBorrow := by
  intro s x y
  obtain ⟨hvf, hx, hrest⟩ :=
    s.setResultFlag_advance_effect x (s.reg y - s.reg x) (notBorrowFlag (s.reg y) (s.reg x))
  exact ⟨_, rfl, hvf.trans (flagByte_decide _), fun hne => by rw [hx hne, toNat_byte_sub], hrest⟩

/-- Settles O25: the flag written last is the bit that the shift by one pushes out of Vx; neither reads Vy. -/
theorem shiftsPutTheLostBitInVf : Obligations.ShiftsPutTheLostBitInVf := by
  refine fun s x _ => ⟨?shr, ?shl⟩
  case shr =>
    obtain ⟨hvf, hx, hrest⟩ := s.setResultFlag_advance_effect x (s.reg x >>> 1) (shiftOutRight (s.reg x))
    refine ⟨_, rfl, ?_, fun hne => by rw [hx hne, toNat_byte_shiftRight_one], hrest⟩
    rw [hvf, toNat_flagByte, toNat_shiftOutRight]
  case shl =>
    obtain ⟨hvf, hx, hrest⟩ := s.setResultFlag_advance_effect x (s.reg x <<< 1) (shiftOutLeft (s.reg x))
    refine ⟨_, rfl, ?_, fun hne => by rw [hx hne, toNat_byte_shiftLeft_one], hrest⟩
    rw [hvf, toNat_flagByte, toNat_shiftOutLeft]

/-- Settles O19: each writes its operand to Vx alone. -/
theorem loadsWriteVxAlone : Obligations.LoadsWriteVxAlone :=
  fun s x y nn => ⟨⟨_, rfl, s.setReg_advance_effect x nn⟩, ⟨_, rfl, s.setReg_advance_effect x (s.reg y)⟩⟩

/-- Settles O20: the sum of bytes is written to Vx alone, and no flag after it. -/
theorem addImmediateWrapsAndKeepsTheFlag : Obligations.AddImmediateWrapsAndKeepsTheFlag := by
  intro s x nn
  obtain ⟨hx, hrest⟩ := s.setReg_advance_effect x (s.reg x + nn)
  exact ⟨_, rfl, by rw [hx, BitVec.toNat_add], hrest⟩

end Sys2Proof.Machine

/-! The proofs about the display: clearing it, and drawing a sprite in the terms of `SpriteCovers` (`41_display.md` R120,
R121). -/

namespace Sys2Proof.Machine

/-- Settles O28: the cleared display is the one that CLS leaves, and only PC moves beside it. -/
theorem clearScreenClearsEveryPixel : Obligations.ClearScreenClearsEveryPixel :=
  fun _ => ⟨_, rfl, Display.pixel_clear, rfl, fun _ => rfl⟩

/-! ## Drawing, in the terms of the pixels covered -/

section
variable {s : State} {x y : Reg} {n : Nat} {row : Fin 32} {col : Fin 64}

/-- The display and `hit` that DRW Vx, Vy, n computes. -/
def spriteDrawn (s : State) (x y : Reg) (n : Nat) : Display × Bool :=
  drawSprite s (startColumn (s.reg x)) (startRow (s.reg y)) n

/-- The state that DRW Vx, Vy, n leaves when it raises nothing. -/
def State.afterDraw (s : State) (x y : Reg) (n : Nat) : State :=
  ((s.setFb (spriteDrawn s x y n).1).setFlag (spriteDrawn s x y n).2).advance

theorem exec_drw_in_memory (h : n = 0 ∨ s.i.toNat + n - 1 ≤ 0xFFF) :
    exec (.drw x y n) s = .next (s.afterDraw x y n) := by
  refine if_neg fun ⟨hn, hr⟩ => hr ?_
  rw [reaches_iff]
  omega

/-- A sprite covers the display pixels that its own pixels land on. -/
theorem spriteCovers_iff_landing : SpriteCovers s x y n row col ↔
    ∃ cell ∈ spriteCells n, landing s (startColumn (s.reg x)) (startRow (s.reg y)) cell = some (row, col) := by
  simp only [SpriteCovers, Prod.exists, mem_spriteCells, landing, Option.ite_none_right_eq_some, pixelTarget_eq_some,
    and_assoc]
  rfl

theorem pixel_spriteDrawn (hn : n ≤ 32) : (spriteDrawn s x y n).1.pixel row col = true ↔
    ¬ (s.pixel row col = true ↔ SpriteCovers s x y n row col) := by
  rw [spriteCovers_iff_landing]
  exact (drawSprite_spec s _ _ hn).1 row col

theorem pixel_spriteDrawn_of_covers (hn : n ≤ 32) (h : SpriteCovers s x y n row col) :
    (spriteDrawn s x y n).1.pixel row col = !s.pixel row col := by
  rw [Bool.eq_iff_iff, pixel_spriteDrawn hn]
  simp [h]

theorem pixel_spriteDrawn_of_not_covers (hn : n ≤ 32) (h : ¬ SpriteCovers s x y n row col) :
    (spriteDrawn s x y n).1.pixel row col = s.pixel row col := by
  rw [Bool.eq_iff_iff, pixel_spriteDrawn hn]
  simp [h]

/-- `hit` says whether a set pixel was covered. -/
theorem spriteDrawn_hit (hn : n ≤ 32) : (spriteDrawn s x y n).2 = true ↔
    ∃ row col, SpriteCovers s x y n row col ∧ s.pixel row col = true := by
  refine (drawSprite_spec s _ _ hn).2.trans ?_
  simp only [spriteCovers_iff_landing]
  constructor
  · rintro ⟨cell, hcell, row, col, hland, hset⟩
    exact ⟨row, col, ⟨cell, hcell, hland⟩, hset⟩
  · rintro ⟨row, col, ⟨cell, hcell, hland⟩, hset⟩
    exact ⟨cell, hcell, row, col, hland, hset⟩

/-- DRW writes the flag to VF, whatever x and y are. -/
theorem State.reg_vf_afterDraw : (s.afterDraw x y n).reg vf = flagByte (spriteDrawn s x y n).2 :=
  State.reg_setReg_same vf _

theorem State.reg_afterDraw_ne {r : Reg} (hr : r ≠ vf) : (s.afterDraw x y n).reg r = s.reg r :=
  State.reg_setReg_ne _ hr

end

/-- Settles O29: with its last byte outside MEM, DRW raises its one fault; otherwise it leaves the drawn display and the
flag, and the pixels inverted and the flag are those of the pixels covered. -/
theorem drawInvertsTheCoveredPixelsAndReportsErasure :
    Obligations.DrawInvertsTheCoveredPixelsAndReportsErasure := by
  intro s x y n hn
  have hn32 : n ≤ 32 := by omega
  refine ⟨fun hpos hout => ?raises, fun hin => ⟨s.afterDraw x y n, exec_drw_in_memory hin, ?draws⟩⟩
  case raises => exact exec_of_executionFault (kind := .outOfBounds) (if_pos ⟨hpos, hout⟩)
  case draws =>
    refine ⟨fun _ _ => pixel_spriteDrawn_of_covers hn32, fun _ _ => pixel_spriteDrawn_of_not_covers hn32,
      fun hset => ?erased, fun hclear => ?kept, fun _ => State.reg_afterDraw_ne, rfl, fun _ => rfl⟩
    case erased =>
      rw [State.reg_vf_afterDraw, (spriteDrawn_hit hn32).mpr hset]
      rfl
    case kept =>
      rw [State.reg_vf_afterDraw, Bool.eq_false_iff.mpr (mt (spriteDrawn_hit hn32).mp hclear)]
      rfl

end Sys2Proof.Machine

/-! The proofs about jumps, calls and returns (`42_control_transfer.md` R130 to R133). -/

namespace Sys2Proof.Machine

section
variable {s t : State} {nnn a : Word}

/-- Every byte reads alike where the memories are the same. -/
theorem sameBytes_of_mem_eq (h : t.mem = s.mem) : SameBytes s t :=
  fun b => congrArg (Memory.get · b) h

/-- A jump target of twelve bits plus a byte fits PC, so the sum is the unbounded one (`42_control_transfer.md` R131). -/
theorem toNat_target_add_byte (b : Byte) (h : nnn.toNat ≤ 0xFFF) :
    (nnn + b.setWidth 16).toNat = nnn.toNat + b.toNat := by
  have hb : b.toNat < 2 ^ 8 := b.isLt
  rw [BitVec.toNat_add, BitVec.toNat_setWidth]
  omega

/-- A CALL whose push succeeds goes to its target. -/
theorem exec_call_of_push (h : s.push (s.pc + 2) = some t) : exec (.call nnn) s = .next (t.setPc nnn) := by
  show execCall nnn s = _
  rw [execCall, h]

/-- A RET whose pop succeeds goes to the popped entry. -/
theorem exec_ret_of_pop (h : s.pop = some (a, t)) : exec .ret s = .next (t.setPc a) := by
  show execRet s = _
  rw [execRet, h]

end

/-! ## The obligations -/

/-- Settles O32: with SP = 16 CALL raises its one fault; below that its push succeeds, and only PC moves after it. -/
theorem callPushesTheNextAddressOrOverflows : Obligations.CallPushesTheNextAddressOrOverflows := by
  refine fun s nnn => ⟨fun hfull => ?overflows, fun hroom => ?pushes⟩
  case overflows => exact exec_of_executionFault (kind := .stackOverflow) (if_pos hfull)
  case pushes =>
    obtain ⟨hfull, -⟩ | ⟨-, t, hpush, hsp, htop, hother, ht⟩ := s.push_cases (s.pc + 2)
    · omega
    · have hmem : t.mem = s.mem := by rw [ht]
      exact ⟨t.setPc nnn, exec_call_of_push hpush, rfl, hsp, htop, hother, congrArg (State.setPc · nnn) ht,
        sameBytes_of_mem_eq hmem⟩

/-- Settles O33: with SP = 0 RET raises its one fault; above that its pop succeeds, and only PC moves after it. -/
theorem returnPopsTheTopEntryOrUnderflows : Obligations.ReturnPopsTheTopEntryOrUnderflows := by
  refine fun s => ⟨fun hempty => ?underflows, fun hlive => ?pops⟩
  case underflows => exact exec_of_executionFault (kind := .stackUnderflow) (if_pos hempty)
  case pops =>
    obtain ⟨hempty, -⟩ | ⟨-, a, t, hpop, hsp, htop, ht⟩ := s.pop_cases
    · omega
    · have hmem : t.mem = s.mem := by rw [ht]
      exact ⟨t.setPc a, exec_ret_of_pop hpop, hsp, htop, congrArg (State.setPc · a) ht, sameBytes_of_mem_eq hmem⟩

/-- Settles O31: each jump sets PC to its target, and the target of the second form is the unbounded sum. -/
theorem jumpsSetPcAlone : Obligations.JumpsSetPcAlone :=
  fun s _ => ⟨⟨_, rfl, rfl, rfl, fun _ => rfl⟩, ⟨_, rfl, toNat_target_add_byte (s.reg 0), rfl, fun _ => rfl⟩⟩

end Sys2Proof.Machine

/-! The proofs about the conditional skips (`43_skips.md` R140 to R145). -/

namespace Sys2Proof.Machine

/-- An instruction that answers with a skip changes PC alone; PC moves as the condition that its test decides holds or
not. -/
theorem exec_eq_of_skipIf {s : State} {i : Instr} {c : Bool} {p : Prop} [Decidable p]
    (hexec : exec i s = .next (s.skipIf c)) (h : c = true ↔ p) :
    exec i s = .next { s with pc := if p then s.pc + 4 else s.pc + 2 } := by
  rw [hexec, ← State.skipIf_pc h]
  rfl

/-- The key that the low 4 bits of a byte select is the byte modulo 16 (`43_skips.md` R144). -/
theorem lowNibble_eq_of_val {b : Byte} {k : Key} (h : k.val = b.toNat % 16) : lowNibble b = k :=
  Fin.ext ((lowNibble_val b).trans h.symm)

/-- Settles O35: each is a skip, and its test decides its comparison. -/
theorem comparisonSkipsMovePcAlone : Obligations.ComparisonSkipsMovePcAlone := by
  refine fun s x y nn => ⟨?seImm, ?sneImm, ?seReg, ?sneReg⟩
  case seImm | seReg => exact exec_eq_of_skipIf rfl beq_iff_eq
  case sneImm | sneReg => exact exec_eq_of_skipIf rfl bne_iff_ne

/-- Settles O36: each is a skip, and its test reads the key that Vx modulo 16 names. -/
theorem keySkipsTestTheSelectedKey : Obligations.KeySkipsTestTheSelectedKey := by
  intro s x k hk
  obtain rfl : lowNibble (s.reg x) = k := lowNibble_eq_of_val hk
  exact ⟨exec_eq_of_skipIf rfl Iff.rfl, exec_eq_of_skipIf rfl (iff_of_eq (Bool.not_eq_true' _))⟩

end Sys2Proof.Machine

/-! The proofs about the key wait and the random number (`44_keywait_random.md` R150, R152). -/

namespace Sys2Proof.Machine

/-- A machine that is not Running executes no instruction and stays as it is (`60_exceptions.md` R221). -/
theorem State.deliver_step_of_not_running {s : State} (h : s.status ≠ .running) : s.deliver .step = .next s := by
  show s.cycle = _
  unfold State.cycle
  split
  case h_1 hrunning => exact absurd hrunning h
  case h_2 | h_3 => rfl

/-- Settles O38: executing it only begins the wait, and a machine that waits is not Running. -/
theorem keyWaitSuspendsAtTheInstruction : Obligations.KeyWaitSuspendsAtTheInstruction :=
  fun _ _ => ⟨rfl, fun _ hwait => State.deliver_step_of_not_running (by simp [hwait])⟩

/-- Settles O40: the draw is counted and the masked byte is written to Vx alone. -/
theorem randomMasksTheNextDraw : Obligations.RandomMasksTheNextDraw :=
  fun s x nn => ⟨rndWith s.nextDraw x nn s, rfl, s.countDraw.setReg_advance_effect x (s.nextDraw &&& nn)⟩

end Sys2Proof.Machine

/-! The proofs about the index register, the memory transfers and the timers (`45_index_memory_timers.md` R160 to
R168). -/

namespace Sys2Proof.Machine

/-! ## Storing from I on -/

section
variable {s : State} {x : Reg}

/-- The three decimal digits as numbers (`45_index_memory_timers.md` R163). -/
theorem decimalDigits_cases (b : Byte) : ∃ hundreds tens ones : Byte, decimalDigits b = [hundreds, tens, ones] ∧
    hundreds.toNat = b.toNat / 100 ∧ tens.toNat = b.toNat / 10 % 10 ∧ ones.toNat = b.toNat % 10 := by
  have hb : b.toNat < 2 ^ 8 := b.isLt
  exact ⟨_, _, _, rfl, Nat.mod_eq_of_lt (by omega), Nat.mod_eq_of_lt (by omega), Nat.mod_eq_of_lt (by omega)⟩

/-- The bytes of V0 to Vx, in order: number r is Vr (`45_index_memory_timers.md` R164). -/
theorem getElem_map_regsUpTo {r : Reg} (h : r.val < ((regsUpTo x).map s.reg).length) (hr : r ≤ x) :
    ((regsUpTo x).map s.reg)[r.val] = s.reg r := by
  obtain ⟨hlt, hget⟩ := List.getElem?_eq_some_iff.mp (getElem_regsUpTo x r hr)
  rw [List.getElem_map, hget]

/-- A list of n + 1 bytes stored from I on, and PC moved on: each byte stands at its place in I to I + n, and nothing
else but PC changes. -/
theorem State.storeBytes_ea_advance_effect (s : State) {bs : List Byte} {n : Nat} (hlen : bs.length = n + 1) :
    (∀ k (hk : k < bs.length), (s.storeBytes (s.ea 0) bs).advance.readByte (s.ea k) = bs[k]) ∧
    SameBytesOutside (s.ea 0) (s.ea n) s (s.storeBytes (s.ea 0) bs).advance ∧
    (s.storeBytes (s.ea 0) bs).advance =
      { s with mem := (s.storeBytes (s.ea 0) bs).advance.mem, pc := s.pc + 2 } := by
  refine ⟨fun k hk => State.readByte_storeBytes hk, fun a ha => ?outside, ?frame⟩
  case outside =>
    have hend : s.ea n + 1 = s.ea 0 + bs.length := by rw [hlen]; rfl
    exact State.readByte_storeBytes_outside (by omega)
  case frame => exact congrArg State.advance (State.storeBytes_eq bs (s.ea 0))

/-! ## A transfer inside MEM -/

theorem exec_ldB_of_le (h : s.ea 2 ≤ 0xFFF) :
    exec (.ldB x) s = .next (s.storeBytes (s.ea 0) (decimalDigits (s.reg x))).advance :=
  if_pos ((reaches_iff 2).mpr h)

theorem exec_ldMemVx_of_le (h : s.ea x ≤ 0xFFF) :
    exec (.ldMemVx x) s = .next (s.storeBytes (s.ea 0) ((regsUpTo x).map s.reg)).advance :=
  if_pos ((reaches_iff x.val).mpr h)

theorem exec_ldVxMem_of_le (h : s.ea x ≤ 0xFFF) :
    exec (.ldVxMem x) s = .next (s.loadRegs (regsUpTo x)).advance :=
  if_pos ((reaches_iff x.val).mpr h)

/-! ## ST stays out of every other instruction -/

/-- The fault that an execution raises does not depend on ST. -/
theorem executionFault_setSt (i : Instr) (b : Byte) : executionFault i (s.setSt b) = executionFault i s := rfl

theorem State.push_setSt (a : Word) (b : Byte) : (s.setSt b).push a = (s.push a).map (State.setSt · b) := by
  by_cases h : s.sp.val < 16
  · simp [State.push, h, State.setSt]
  · simp [State.push, h]

theorem State.pop_setSt (b : Byte) : (s.setSt b).pop = s.pop.map fun p => (p.1, p.2.setSt b) := by
  by_cases h : 0 < s.sp.val
  · simp [State.pop, h, State.setSt]
  · simp [State.pop, h]

theorem State.storeBytes_setSt (a : Nat) (bs : List Byte) (b : Byte) :
    (s.setSt b).storeBytes a bs = (s.storeBytes a bs).setSt b := by
  induction bs generalizing s a with
  | nil => rfl
  | cons c bs ih => exact ih (s := s.writeByte a c) (a + 1)

theorem State.loadRegs_setSt (rs : List Reg) (b : Byte) : (s.setSt b).loadRegs rs = (s.loadRegs rs).setSt b := by
  induction rs generalizing s with
  | nil => rfl
  | cons r rs ih => exact ih (s := s.setReg r (s.readByte (s.ea r)))

/-- With another value in ST an instruction other than LD ST does the same and leaves that value
(`45_index_memory_timers.md` R168): it raises the same fault, or its operations pass ST by. -/
theorem exec_setSt {i : Instr} (b : Byte) (hi : ∀ x, i ≠ .ldStVx x) :
    ∃ t, exec i s = .next t ∧ exec i (s.setSt b) = .next (t.setSt b) := by
  cases hf : executionFault i s with
  | some kind => exact ⟨_, exec_of_executionFault hf, exec_of_executionFault ((executionFault_setSt i b).trans hf)⟩
  | none =>
    cases i with
    | call nnn =>
      have hsp : s.sp.val ≠ 16 := by simpa [executionFault] using hf
      obtain ⟨hfull, -⟩ | ⟨-, t, hpush, -⟩ := s.push_cases (s.pc + 2)
      · exact absurd hfull hsp
      · have hpush' : (s.setSt b).push (s.pc + 2) = some (t.setSt b) := by rw [State.push_setSt, hpush]; rfl
        exact ⟨_, exec_call_of_push hpush, exec_call_of_push hpush'⟩
    | ret =>
      have hsp : s.sp.val ≠ 0 := by simpa [executionFault] using hf
      obtain ⟨hempty, -⟩ | ⟨-, a, t, hpop, -⟩ := s.pop_cases
      · exact absurd hempty hsp
      · have hpop' : (s.setSt b).pop = some (a, t.setSt b) := by rw [State.pop_setSt, hpop]; rfl
        exact ⟨_, exec_ret_of_pop hpop, exec_ret_of_pop hpop'⟩
    | drw x y n =>
      have hle : n = 0 ∨ s.i.toNat + n - 1 ≤ 0xFFF := by
        have : ¬ (0 < n ∧ 0xFFF < s.i.toNat + n - 1) := by simpa [executionFault] using hf
        omega
      exact ⟨_, exec_drw_in_memory hle, exec_drw_in_memory (s := s.setSt b) hle⟩
    | ldB x =>
      have hle : s.ea 2 ≤ 0xFFF := by simpa [executionFault, State.ea] using hf
      refine ⟨_, exec_ldB_of_le hle, (exec_ldB_of_le (s := s.setSt b) hle).trans ?_⟩
      rw [State.storeBytes_setSt]
      rfl
    | ldMemVx x =>
      have hle : s.ea x ≤ 0xFFF := by simpa [executionFault, State.ea] using hf
      refine ⟨_, exec_ldMemVx_of_le hle, (exec_ldMemVx_of_le (s := s.setSt b) hle).trans ?_⟩
      rw [State.storeBytes_setSt]
      rfl
    | ldVxMem x =>
      have hle : s.ea x ≤ 0xFFF := by simpa [executionFault, State.ea] using hf
      refine ⟨_, exec_ldVxMem_of_le hle, (exec_ldVxMem_of_le (s := s.setSt b) hle).trans ?_⟩
      rw [State.loadRegs_setSt]
      rfl
    | ldStVx x => exact absurd rfl (hi x)
    | cls | jp nnn | jpV0 nnn | seImm x nn | sneImm x nn | seReg x y | sneReg x y | skp x | sknp x | ldImm x nn
    | addImm x nn | ldReg x y | or x y | and x y | xor x y | addReg x y | sub x y | shr x y | subn x y | shl x y
    | ldI nnn | addI x | ldF x | rnd x nn | ldVxDt x | ldDtVx x | ldVxK x => exact ⟨_, rfl, rfl⟩

end

/-! ## Values of I -/

theorem toNat_word_add_byte (a : Word) (b : Byte) : (a + b.setWidth 16).toNat = (a.toNat + b.toNat) % 65536 := by
  rw [BitVec.toNat_add, BitVec.toNat_setWidth_of_le (by decide)]

theorem toNat_glyphAddr (d : Fin 16) : (glyphAddr d).toNat = 0x050 + 5 * d.val := by
  have hd : d.val < 16 := d.isLt
  rw [glyphAddr, BitVec.toNat_ofNat, Config.fontBase]
  omega

/-! ## The obligations -/

/-- Settles O44: beyond MEM it raises its one fault; inside, it stores the three decimal digits from I on. -/
theorem decimalStoreWritesThreeDigits : Obligations.DecimalStoreWritesThreeDigits := by
  refine fun s x => ⟨fun hgt => ?outOfBounds, fun hle => ?stores⟩
  case outOfBounds => exact exec_of_executionFault (kind := .outOfBounds) (if_pos hgt)
  case stores =>
    obtain ⟨hundreds, tens, ones, hdigits, hh, ht, ho⟩ := decimalDigits_cases (s.reg x)
    have hexec : exec (.ldB x) s = .next (s.storeBytes (s.ea 0) [hundreds, tens, ones]).advance := by
      rw [exec_ldB_of_le hle, hdigits]
    obtain ⟨hbyte, hrest⟩ := s.storeBytes_ea_advance_effect (bs := [hundreds, tens, ones]) (n := 2) rfl
    exact ⟨_, hexec, (congrArg BitVec.toNat (hbyte 0 (by simp))).trans hh,
      (congrArg BitVec.toNat (hbyte 1 (by simp))).trans ht, (congrArg BitVec.toNat (hbyte 2 (by simp))).trans ho,
      hrest⟩

/-- Settles O45: beyond MEM it raises its one fault; inside, it stores the list of V0 to Vx from I on. -/
theorem registerStoreWritesV0ToVx : Obligations.RegisterStoreWritesV0ToVx := by
  refine fun s x => ⟨fun hgt => ?outOfBounds, fun hle => ?stores⟩
  case outOfBounds => exact exec_of_executionFault (kind := .outOfBounds) (if_pos hgt)
  case stores =>
    have hlen : ((regsUpTo x).map s.reg).length = x.val + 1 := by rw [List.length_map, length_regsUpTo]
    obtain ⟨hbyte, hrest⟩ := s.storeBytes_ea_advance_effect hlen
    refine ⟨_, exec_ldMemVx_of_le hle, fun r hr => ?_, hrest⟩
    have hk : r.val < ((regsUpTo x).map s.reg).length := hlen ▸ Nat.lt_succ_of_le hr
    rw [hbyte r.val hk, getElem_map_regsUpTo hk hr]

/-- Settles O46: beyond MEM it raises its one fault; inside, exactly the registers of the list V0 to Vx are loaded. -/
theorem registerLoadReadsV0ToVx : Obligations.RegisterLoadReadsV0ToVx := by
  refine fun s x => ⟨fun hgt => ?outOfBounds, fun hle => ?loads⟩
  case outOfBounds => exact exec_of_executionFault (kind := .outOfBounds) (if_pos hgt)
  case loads =>
    have hreg := s.reg_loadRegs (regsUpTo x) (nodup_regsUpTo x)
    have hmem : (s.loadRegs (regsUpTo x)).mem = s.mem := by rw [State.loadRegs_eq]
    refine ⟨_, exec_ldVxMem_of_le hle, fun r hr => ?_, fun r hr => ?_, ?_, sameBytes_of_mem_eq hmem⟩
    · exact (hreg r).trans (if_pos (mem_regsUpTo.mpr hr))
    · exact (hreg r).trans (if_neg (mt mem_regsUpTo.mp (not_le_of_gt hr)))
    · exact congrArg State.advance (State.loadRegs_eq (regsUpTo x))

/-- Settles O48: each of the three writes one byte alone, and no other instruction sees ST. -/
theorem timerInstructionsMoveOneByte : Obligations.TimerInstructionsMoveOneByte := by
  refine ⟨fun i s t b hi hexec => ?_, fun s x => ⟨?ldVxDt, ?ldDtVx, ?ldStVx⟩⟩
  · obtain ⟨u, hu, hset⟩ := exec_setSt (s := s) b hi
    obtain rfl : u = t := by simpa [hu] using hexec
    exact hset
  case ldVxDt => exact ⟨_, rfl, s.setReg_advance_effect x s.dt⟩
  case ldDtVx => exact ⟨_, rfl, rfl, fun _ => rfl⟩
  case ldStVx => exact ⟨_, rfl, rfl, bne_iff_ne, fun _ => rfl⟩

/-- Settles O43: each writes its value to I, and only PC moves beside it. -/
theorem indexInstructionsWriteIAlone : Obligations.IndexInstructionsWriteIAlone := by
  refine fun s x nnn => ⟨?ldI, ?addI, ?ldF⟩
  case ldI => exact ⟨_, rfl, rfl, rfl, fun _ => rfl⟩
  case addI => exact ⟨_, rfl, toNat_word_add_byte s.i (s.reg x), rfl, fun _ => rfl⟩
  case ldF => exact ⟨_, rfl, by rw [← lowNibble_val]; exact toNat_glyphAddr _, rfl, fun _ => rfl⟩

end Sys2Proof.Machine

/-! The proofs about the step event, the faults it can raise, and the tick and key events (`60_exceptions.md` R201 to
R228, `44_keywait_random.md` R151). -/

namespace Sys2Proof.Machine

/-! ## The step of the Running machine, by what its fetch and its decoding give -/

section
variable {s : State} {w : Word}

/-- In Running a step closes the load port and runs the instruction at PC (`60_exceptions.md` R221). -/
theorem State.deliver_step_of_running (h : s.status = .running) :
    s.deliver .step = s.closeLoad.runInstruction := by
  show s.cycle = _
  rw [State.cycle, h]

/-- An illegal word is a no-operation when the configuration says so (`30_encoding.md` R77). -/
theorem State.runInstruction_of_illegal_permissive (hf : s.fetch = some w) (hd : decode w = none)
    (hc : s.config.permissiveUnknownOpcode = true) : s.runInstruction = .next s.advance := by
  simp only [State.runInstruction, hf, hd]
  exact if_pos hc

/-- An illegal word raises UnknownOpcode when the configuration does not make it a no-operation (`60_exceptions.md`
R202). -/
theorem State.runInstruction_of_illegal_strict (hf : s.fetch = some w) (hd : decode w = none)
    (hc : s.config.permissiveUnknownOpcode = false) : s.runInstruction = .next (s.raise .unknownOpcode (some w)) := by
  simp only [State.runInstruction, hf, hd]
  exact if_neg (Bool.eq_false_iff.mp hc)

/-- A word that decodes runs its instruction. -/
theorem State.runInstruction_of_decode {i : Instr} (hf : s.fetch = some w) (hd : decode w = some i) :
    s.runInstruction = exec i s := by
  simp only [State.runInstruction, hf, hd]

end

/-- Settles O11: each clause is one case of running the instruction at PC, with the load port closed. -/
theorem stepEventFetchesDecodesAndExecutes : Obligations.StepEventFetchesDecodesAndExecutes := by
  refine fun s => ⟨State.deliver_step_of_not_running, fun hs hf => ?noFetch, fun w hs hf hd hc => ?permissive,
    fun w hs hf hd hc => ?strict, fun w i hs hf hd => ?legal⟩
  all_goals rw [State.deliver_step_of_running hs]
  case noFetch => exact State.runInstruction_of_fetch_none (s := s.closeLoad) hf
  case permissive => exact State.runInstruction_of_illegal_permissive (s := s.closeLoad) hf hd hc
  case strict => exact State.runInstruction_of_illegal_strict (s := s.closeLoad) hf hd hc
  case legal => exact State.runInstruction_of_decode (s := s.closeLoad) hf hd

/-! ## A step raises its one expected fault, or completes -/

section
variable {s : State}

theorem expectedFault_of_fetch_none (hf : s.fetch = none) : expectedFault s = some .outOfBounds := by
  rw [expectedFault, hf]

theorem expectedFault_of_illegal {w : Word} (hf : s.fetch = some w) (hd : decode w = none) :
    expectedFault s = if s.config.permissiveUnknownOpcode then none else some .unknownOpcode := by
  simp only [expectedFault, hf, hd]

theorem expectedFault_of_decode {w : Word} {i : Instr} (hf : s.fetch = some w) (hd : decode w = some i) :
    expectedFault s = executionFault i s := by
  simp only [expectedFault, hf, hd]

/-- The fault of a step is raised with what was fetched as its word: the word that an execution records, the encoding of
the instruction, is the one the instruction was decoded from (log entry 8). -/
theorem State.runInstruction_of_expectedFault {kind : FaultKind} (h : expectedFault s = some kind) :
    s.runInstruction = .next (s.raise kind s.fetch) := by
  cases hf : s.fetch with
  | none =>
    obtain rfl : FaultKind.outOfBounds = kind := by simpa [expectedFault_of_fetch_none hf] using h
    exact State.runInstruction_of_fetch_none hf
  | some w =>
    cases hd : decode w with
    | none =>
      obtain ⟨hc, rfl⟩ : s.config.permissiveUnknownOpcode = false ∧ FaultKind.unknownOpcode = kind := by
        simpa [expectedFault_of_illegal hf hd] using h
      exact State.runInstruction_of_illegal_strict hf hd hc
    | some i =>
      rw [expectedFault_of_decode hf hd] at h
      rw [State.runInstruction_of_decode hf hd, exec_of_executionFault h, State.raiseAt_eq, encode_of_decode hd]

/-- A Running machine whose step has no fault to raise is not halted by it. -/
theorem State.runInstruction_of_no_expectedFault (hs : s.status = .running) (h : expectedFault s = none) :
    ∃ t, s.runInstruction = .next t ∧ t.status ≠ .halted := by
  cases hf : s.fetch with
  | none => simp [expectedFault_of_fetch_none hf] at h
  | some w =>
    cases hd : decode w with
    | none =>
      have hc : s.config.permissiveUnknownOpcode = true := by simpa [expectedFault_of_illegal hf hd] using h
      exact ⟨_, State.runInstruction_of_illegal_permissive hf hd hc, by simp [hs]⟩
    | some i =>
      rw [expectedFault_of_decode hf hd] at h
      obtain ⟨t, hexec, -, hstatus⟩ := exec_of_no_executionFault h
      refine ⟨t, (State.runInstruction_of_decode hf hd).trans hexec, ?_⟩
      obtain ht | ⟨-, ht⟩ := hstatus <;> simp [ht, hs]

/-- What a step raises does not depend on the load port. -/
theorem expectedFault_closeLoad : expectedFault s.closeLoad = expectedFault s := rfl

/-- All that a step of the Running machine can do about its fault: raise the one it has, or complete unhalted. -/
theorem State.deliver_step_cases {t : State} (hs : s.status = .running) (ht : s.deliver .step = .next t) :
    (∃ kind, expectedFault s = some kind ∧ t = s.closeLoad.raise kind s.fetch) ∨
    (expectedFault s = none ∧ t.status ≠ .halted) := by
  rw [State.deliver_step_of_running hs] at ht
  cases hx : expectedFault s with
  | some kind =>
    rw [State.runInstruction_of_expectedFault (expectedFault_closeLoad.trans hx)] at ht
    cases ht
    exact .inl ⟨kind, rfl, rfl⟩
  | none =>
    obtain ⟨u, hu, hne⟩ := State.runInstruction_of_no_expectedFault (s := s.closeLoad) hs hx
    obtain rfl : u = t := by simpa [hu] using ht
    exact .inr ⟨rfl, hne⟩

end

/-- Settles O15: a step that ends in Halted has raised its fault, with the load port closed. -/
theorem aFaultRecordsAndChangesNothingElse : Obligations.AFaultRecordsAndChangesNothingElse := by
  intro s t hs ht hhalted
  obtain ⟨kind, -, rfl⟩ | ⟨-, hne⟩ := State.deliver_step_cases hs ht
  · exact ⟨kind, rfl⟩
  · exact absurd hhalted hne

/-- Settles O16: a step that has a fault raises it and halts; a step that has none does not halt. -/
theorem aStepHaltsExactlyOnTheListedCauses : Obligations.AStepHaltsExactlyOnTheListedCauses := by
  intro s t hs ht
  obtain ⟨kind, hx, rfl⟩ | ⟨hx, hne⟩ := State.deliver_step_cases hs ht
  · refine ⟨iff_of_true rfl (by simp [hx]), fun kind' hx' => ?_⟩
    obtain rfl : kind = kind' := by simpa [hx] using hx'
    rfl
  · exact ⟨iff_of_false hne (by simp [hx]), by simp [hx]⟩

/-! ## Key events -/

section
variable {s : State} {k : Key}

/-- Moving a key moves that key and nothing else. -/
theorem State.setKey_effect (s : State) (k : Key) (b : Bool) :
    (s.setKey k b).keyDown k = b ∧ (∀ j, j ≠ k → (s.setKey k b).keyDown j = s.keyDown j) ∧
    s.setKey k b = { s with key := (s.setKey k b).key } :=
  ⟨State.keyDown_setKey_same k b, fun _ hj => State.keyDown_setKey_ne b hj, rfl⟩

/-- The press of a key that was up ends a wait (`44_keywait_random.md` R151). -/
theorem State.keySet_of_press (hw : s.status = .awaitingKey) (hk : s.keyDown k = false) :
    s.keySet k = (s.setKey k true).completeWait k := if_pos ⟨hw, hk⟩

/-- With no machine waiting, or with the key down already, `key_set` completes nothing (`60_exceptions.md` R228). -/
theorem State.keySet_of_no_press (h : s.status ≠ .awaitingKey ∨ s.keyDown k = true) :
    s.keySet k = s.setKey k true := by
  refine if_neg fun ⟨hw, hk⟩ => ?_
  simp [hw, hk] at h

/-- Completing a wait writes the key number to the waiting register alone. -/
theorem State.reg_completeWait (r : Reg) :
    (s.completeWait k).reg r = if r = s.waitReg then BitVec.ofNat 8 k.val else s.reg r :=
  State.reg_setReg s.waitReg r _

theorem toNat_keyByte (k : Key) : (BitVec.ofNat 8 k.val).toNat = k.val := by
  rw [BitVec.toNat_ofNat]
  omega

end

/-- Settles O39: whatever a press completes, the key itself moves as `setKey` moves it. -/
theorem keyEventsMoveKeysAndAPressEndsTheWait : Obligations.KeyEventsMoveKeysAndAPressEndsTheWait := by
  refine fun s k => ⟨fun hw hk => ?press, fun h => ?noPress, ⟨_, rfl, s.setKey_effect k false⟩⟩
  case press =>
    obtain ⟨hdown, hother, -⟩ := s.setKey_effect k true
    refine ⟨_, congrArg Host.Outcome.next (State.keySet_of_press hw hk), ?_, fun r hr => ?_, hdown, hother, rfl⟩
    · rw [State.reg_completeWait, State.setKey_waitReg, if_pos rfl, toNat_keyByte]
    · exact (State.reg_completeWait r).trans (if_neg hr)
  case noPress => exact ⟨_, congrArg Host.Outcome.next (State.keySet_of_no_press h), s.setKey_effect k true⟩

/-! ## The tick -/

section
variable {s : State}

theorem State.tick60_of_halted (h : s.status = .halted) : s.tick60 = s := by
  rw [State.tick60, h]

theorem State.tick60_of_not_halted (h : s.status ≠ .halted) :
    s.tick60 = (s.setDt (countDown s.dt)).setSt (countDown s.st) := by
  unfold State.tick60
  split
  case h_1 hhalted => exact absurd hhalted h
  case h_2 | h_3 => rfl

/-- A timer loses one, floored at 0 (`60_exceptions.md` R224). -/
theorem toNat_countDown (b : Byte) : (countDown b).toNat = b.toNat - 1 := by
  unfold countDown
  split <;> bv_omega

end

/-- Settles O49: outside Halted a tick counts both timers down and writes nothing else. -/
theorem tickCountsBothTimersDownToZero : Obligations.TickCountsBothTimersDownToZero :=
  fun s => ⟨fun h => congrArg Host.Outcome.next (State.tick60_of_halted h), fun h =>
    ⟨_, congrArg Host.Outcome.next (State.tick60_of_not_halted h), toNat_countDown s.dt, toNat_countDown s.st, rfl⟩⟩

/-! ## Halted -/

/-- Settles O17: a halted machine is neither Running nor waiting, so a step and a tick leave it and a press only moves
its key. -/
theorem haltedIsFrozenButForTheKeys : Obligations.HaltedIsFrozenButForTheKeys := by
  intro s hs
  have hnoPress (k : Key) : s.keySet k = s.setKey k true := State.keySet_of_no_press (.inl (by simp [hs]))
  refine ⟨State.deliver_step_of_not_running (by simp [hs]), congrArg Host.Outcome.next (State.tick60_of_halted hs),
    fun k => ⟨_, _, congrArg Host.Outcome.next (hnoPress k), rfl, ?_⟩⟩
  obtain ⟨hdown, hset, hsetFrame⟩ := s.setKey_effect k true
  obtain ⟨hup, hclear, hclearFrame⟩ := s.setKey_effect k false
  exact ⟨hsetFrame, hdown, hset, hclearFrame, hup, hclear, rfl, rfl, rfl, rfl⟩

end Sys2Proof.Machine

namespace Sys2Proof.Machine

/-! ## Program load through the open port (`70_reset_and_hazards.md` R256) -/

section
variable {s : State} {bytes : List Byte}

theorem State.loadProgram_of_too_large (hopen : s.loadOpen = true) (h : 3584 < bytes.length) :
    s.loadProgram bytes = .fault .programTooLarge :=
  (if_pos hopen).trans (if_pos h)

theorem State.loadProgram_of_fits (hopen : s.loadOpen = true) (h : bytes.length ≤ 3584) :
    s.loadProgram bytes = .next (s.storeBytes 0x200 bytes).closeLoad :=
  (if_pos hopen).trans (if_neg (Nat.not_lt.mpr h))

end

/-- Settles O3: a program that fits is stored as one list of bytes from 0x200 on, and closing the port moves no byte. -/
theorem loadProgramCopiesTheBytesOrIsTooLarge : Obligations.LoadProgramCopiesTheBytesOrIsTooLarge := by
  refine fun s bytes hopen => ⟨State.loadProgram_of_too_large hopen, fun hfits =>
    ⟨_, State.loadProgram_of_fits hopen hfits, fun k hk => ?copied, fun a ha => ?outside, ?frame⟩⟩
  case copied => exact State.readByte_storeBytes hk
  case outside => exact State.readByte_storeBytes_outside ha
  case frame => exact congrArg State.closeLoad (State.storeBytes_eq bytes 0x200)

end Sys2Proof.Machine

/-! The proofs about the encoding: decoding and encoding undo each other, and the illegal words are those of the table
(`30_encoding.md` R72 to R76). -/

namespace Sys2Proof

/-! ## Decoding the word of an instruction -/

/-- By the format of the instruction (`30_encoding.md` R72): the word's fields are the operands and the sub-codes. -/
theorem decode_encode {i : Instr} (h : i.WellFormed) : decode (encode i) = some i := by
  cases i with
  | cls | ret => rfl
  | jp nnn | call nnn | ldI nnn | jpV0 nnn => simp [encode, decode, nnnField_encodeNNN _ _ h]
  | seImm x nn | sneImm x nn | ldImm x nn | addImm x nn | rnd x nn => simp [encode, decode]
  | drw x y n =>
    have hn : n < 16 := of_decide_eq_true h
    simp [encode, decode, Nat.mod_eq_of_lt hn]
  | seReg x y | sneReg x y => simp [encode, decode]
  | ldReg x y | or x y | and x y | xor x y | addReg x y | sub x y | shr x y | subn x y | shl x y =>
    simp [encode, decode, decodeFamily8]
  | skp x | sknp x => simp [encode, decode, decodeFamilyE]
  | ldVxDt x | ldVxK x | ldDtVx x | ldStVx x | addI x | ldF x | ldB x | ldMemVx x | ldVxMem x =>
    simp [encode, decode, decodeFamilyF]

/-- Settles O6: the fields of an encoded word are the operands that were put there. -/
theorem decodeInvertsEncode : Obligations.DecodeInvertsEncode := fun _ => decode_encode

/-! ## What a word decodes to is well-formed -/

section
variable {w : Word} {i : Instr}

theorem addressFits_nnnField (w : Word) : addressFits (nnnField w) = true := by
  rw [addressFits, nnnField_toNat]
  exact decide_eq_true (Nat.mod_lt _ (by decide))

theorem heightFits_nField (w : Word) : heightFits (nField w).toNat = true :=
  decide_eq_true (nField w).isLt

theorem wellFormed_of_decodeFamily0 (h : decodeFamily0 w = some i) : i.WellFormed := by
  unfold decodeFamily0 at h
  split at h <;> cases h <;> rfl

theorem wellFormed_of_decodeFamily8 (h : decodeFamily8 w = some i) : i.WellFormed := by
  unfold decodeFamily8 at h
  split at h <;> cases h <;> rfl

theorem wellFormed_of_decodeFamilyE (h : decodeFamilyE w = some i) : i.WellFormed := by
  unfold decodeFamilyE at h
  split at h <;> cases h <;> rfl

theorem wellFormed_of_decodeFamilyF (h : decodeFamilyF w = some i) : i.WellFormed := by
  unfold decodeFamilyF at h
  split at h <;> cases h <;> rfl

/-- An instruction that a word decodes to takes its address and its height from fields of 12 and 4 bits. -/
theorem wellFormed_of_decode (h : decode w = some i) : i.WellFormed := by
  unfold decode at h
  split at h
  case h_1 => exact wellFormed_of_decodeFamily0 h
  case h_9 => exact wellFormed_of_decodeFamily8 h
  case h_15 => exact wellFormed_of_decodeFamilyE h
  case h_16 => exact wellFormed_of_decodeFamilyF h
  case h_6 | h_10 =>
    obtain ⟨-, hi⟩ := Option.ite_none_right_eq_some.mp h
    cases hi
    rfl
  case h_14 =>
    cases h
    exact heightFits_nField w
  case h_2 | h_3 | h_11 | h_12 =>
    cases h
    exact addressFits_nnnField w
  case h_4 | h_5 | h_7 | h_8 | h_13 =>
    cases h
    rfl
  case h_17 => cases h

/-- Settles O7: the operands of a decoded instruction fit their fields, and with the sub-codes they make up
the whole word. -/
theorem encodeInvertsDecode : Obligations.EncodeInvertsDecode :=
  fun _ _ h => ⟨wellFormed_of_decode h, encode_of_decode h⟩

/-! ## The illegal words of each family (`30_encoding.md` R76) -/

theorem decodeFamily0_eq_none_iff : decodeFamily0 w = none ↔ w ≠ 0x00E0 ∧ w ≠ 0x00EE := by
  simp only [ne_eq, ← BitVec.toNat_inj]
  unfold decodeFamily0
  split <;> simp_all

theorem decodeFamily8_eq_none_iff :
    decodeFamily8 w = none ↔ w.toNat % 0x10 ∈ [0x8, 0x9, 0xA, 0xB, 0xC, 0xD, 0xF] := by
  have hlt : w.toNat % 0x10 < 0x10 := Nat.mod_lt _ (by decide)
  rw [← nField_toNat] at hlt ⊢
  unfold decodeFamily8
  split <;> simp_all
  omega

theorem decodeFamilyE_eq_none_iff : decodeFamilyE w = none ↔ w.toNat % 0x100 ∉ [0x9E, 0xA1] := by
  rw [← nnField_toNat]
  unfold decodeFamilyE
  split <;> simp_all

theorem decodeFamilyF_eq_none_iff :
    decodeFamilyF w = none ↔ w.toNat % 0x100 ∉ [0x07, 0x0A, 0x15, 0x18, 0x1E, 0x29, 0x33, 0x55, 0x65] := by
  rw [← nnField_toNat]
  unfold decodeFamilyF
  split <;> simp_all

theorem nField_eq_zero_iff : nField w = 0#4 ↔ w.toNat % 0x10 = 0 := by
  rw [← nField_toNat, ← BitVec.toNat_inj]
  rfl

end

/-- Settles O9: in families 0, 5, 8, 9, E and F the sub-code decides, and every word of the other ten is legal. -/
theorem illegalWordsAreExactlyThoseListed : Obligations.IllegalWordsAreExactlyThoseListed := by
  intro w
  have hfamily : w.toNat / 0x1000 < 16 := by omega
  rw [← opField_toNat] at hfamily ⊢
  unfold decode
  split
  case h_1 hop => simp [hop, decodeFamily0_eq_none_iff]
  case h_6 hop | h_10 hop => simp [hop, nField_eq_zero_iff]
  case h_9 hop => simp [hop, decodeFamily8_eq_none_iff]
  case h_15 hop => simp [hop, decodeFamilyE_eq_none_iff]
  case h_16 hop => simp [hop, decodeFamilyF_eq_none_iff]
  case h_2 hop | h_3 hop | h_4 hop | h_5 hop | h_7 hop | h_8 hop | h_11 hop | h_12 hop | h_13 hop | h_14 hop =>
    simp [hop]
  case h_17 =>
    simp only [imp_false] at *
    omega

/-- Settles O5: the decoder evaluated on each of the words. -/
theorem wordsOfTheTableDecodeAsTheTableSays : Obligations.WordsOfTheTableDecodeAsTheTableSays := by
  unfold Obligations.WordsOfTheTableDecodeAsTheTableSays
  decide

end Sys2Proof

/-! The proofs about what an execution changes: it raises its one fault or completes, and a completed execution leaves
alone all but its own pieces of state and its own registers (`10_state.md` R21, R22, R27 to R40). -/

namespace Sys2Proof.Machine

section
variable {i : Instr} {s t : State}

/-! ## When an execution completes (`60_exceptions.md` R201, R203, R204) -/

theorem executionFault_call_eq_none {nnn : Word} : executionFault (.call nnn) s = none ↔ s.sp.val < 16 := by
  simp only [executionFault, ite_eq_right_iff, reduceCtorEq, imp_false]
  omega

theorem executionFault_ret_eq_none : executionFault .ret s = none ↔ 0 < s.sp.val := by
  simp only [executionFault, ite_eq_right_iff, reduceCtorEq, imp_false]
  omega

theorem executionFault_drw_eq_none {x y : Reg} {n : Nat} :
    executionFault (.drw x y n) s = none ↔ n = 0 ∨ s.i.toNat + n - 1 ≤ 0xFFF := by
  simp only [executionFault, ite_eq_right_iff, reduceCtorEq, imp_false]
  omega

theorem executionFault_ldB_eq_none {x : Reg} : executionFault (.ldB x) s = none ↔ s.ea 2 ≤ 0xFFF := by
  simp [executionFault, State.ea]

theorem executionFault_ldMemVx_eq_none {x : Reg} : executionFault (.ldMemVx x) s = none ↔ s.ea x ≤ 0xFFF := by
  simp [executionFault, State.ea]

theorem executionFault_ldVxMem_eq_none {x : Reg} : executionFault (.ldVxMem x) s = none ↔ s.ea x ≤ 0xFFF := by
  simp [executionFault, State.ea]

/-- All that an execution can do about its fault: raise the one it has, or complete. -/
theorem exec_cases (h : exec i s = .next t) :
    (∃ kind, executionFault i s = some kind ∧ t = s.raiseAt kind i) ∨ executionFault i s = none := by
  cases hf : executionFault i s with
  | none => exact .inr rfl
  | some kind =>
    obtain rfl : s.raiseAt kind i = t := by simpa [exec_of_executionFault hf] using h
    exact .inl ⟨kind, rfl, rfl⟩

/-! ## The pieces of state that a completed execution may change -/

/-- `s` with the pieces that the instruction may write when it completes taken from `t` (`10_state.md` R20 to R40). -/
def footprint (i : Instr) (s t : State) : State :=
  match i with
  | .cls => { s with fb := t.fb, pc := t.pc }
  | .drw _ _ _ => { s with v := t.v, fb := t.fb, pc := t.pc }
  | .call _ => { s with stack := t.stack, sp := t.sp, pc := t.pc }
  | .ret => { s with sp := t.sp, pc := t.pc }
  | .ldI _ | .addI _ | .ldF _ => { s with i := t.i, pc := t.pc }
  | .ldB _ | .ldMemVx _ => { s with mem := t.mem, pc := t.pc }
  | .ldDtVx _ => { s with dt := t.dt, pc := t.pc }
  | .ldStVx _ => { s with st := t.st, pc := t.pc }
  | .rnd _ _ => { s with v := t.v, draws := t.draws, pc := t.pc }
  | .ldVxK _ => { s with waitReg := t.waitReg, status := t.status }
  | .ldImm _ _ | .addImm _ _ | .ldReg _ _ | .or _ _ | .and _ _ | .xor _ _ | .addReg _ _ | .sub _ _ | .subn _ _
  | .shr _ _ | .shl _ _ | .ldVxDt _ | .ldVxMem _ => { s with v := t.v, pc := t.pc }
  | .jp _ | .jpV0 _ | .seImm _ _ | .sneImm _ _ | .seReg _ _ | .sneReg _ _ | .skp _ | .sknp _ => { s with pc := t.pc }

/-- A completed execution changes its own pieces alone. -/
theorem eq_footprint_of_exec (hf : executionFault i s = none) (h : exec i s = .next t) : t = footprint i s t := by
  have of_completed {u : State} (hu : exec i s = .next u) (hframe : u = footprint i s u) : t = footprint i s t := by
    obtain rfl : u = t := by simpa [hu] using h
    exact hframe
  cases i with
  | call nnn =>
    obtain ⟨u, hu, -, -, -, -, hframe, -⟩ :=
      (callPushesTheNextAddressOrOverflows s nnn).2 (executionFault_call_eq_none.mp hf)
    exact of_completed hu hframe
  | ret =>
    obtain ⟨u, hu, -, -, hframe, -⟩ := (returnPopsTheTopEntryOrUnderflows s).2 (executionFault_ret_eq_none.mp hf)
    exact of_completed hu hframe
  | drw x y n => exact of_completed (exec_drw_in_memory (executionFault_drw_eq_none.mp hf)) rfl
  | ldB x =>
    obtain ⟨u, hu, -, -, -, -, hframe⟩ := (decimalStoreWritesThreeDigits s x).2 (executionFault_ldB_eq_none.mp hf)
    exact of_completed hu (by rw [hframe]; rfl)
  | ldMemVx x =>
    obtain ⟨u, hu, -, -, hframe⟩ := (registerStoreWritesV0ToVx s x).2 (executionFault_ldMemVx_eq_none.mp hf)
    exact of_completed hu (by rw [hframe]; rfl)
  | ldVxMem x =>
    obtain ⟨u, hu, -, -, hframe, -⟩ := (registerLoadReadsV0ToVx s x).2 (executionFault_ldVxMem_eq_none.mp hf)
    exact of_completed hu (by rw [hframe]; rfl)
  | cls | jp nnn | jpV0 nnn | seImm x nn | sneImm x nn | seReg x y | sneReg x y | skp x | sknp x | ldImm x nn
  | addImm x nn | ldReg x y | or x y | and x y | xor x y | addReg x y | sub x y | shr x y | subn x y | shl x y
  | ldI nnn | addI x | ldF x | rnd x nn | ldVxDt x | ldDtVx x | ldStVx x | ldVxK x => exact of_completed rfl rfl

/-- A piece of state that raising leaves alone and that is not in the instruction's footprint is not changed. -/
theorem unchanged_of_exec {α : Type} (piece : State → α) (hraise : ∀ kind, piece (s.raiseAt kind i) = piece s)
    (hfootprint : ∀ u, piece (footprint i s u) = piece s) (h : exec i s = .next t) : piece t = piece s := by
  obtain ⟨kind, -, rfl⟩ | hf := exec_cases h
  · exact hraise kind
  · exact (congrArg piece (eq_footprint_of_exec hf h)).trans (hfootprint t)

theorem stack_of_exec (hi : ∀ nnn, i ≠ .call nnn) (h : exec i s = .next t) : t.stack = s.stack := by
  refine unchanged_of_exec State.stack (fun _ => rfl) (fun _ => ?_) h
  cases i with
  | call nnn => exact absurd rfl (hi nnn)
  | _ => rfl

theorem sp_of_exec (hcall : ∀ nnn, i ≠ .call nnn) (hret : i ≠ .ret) (h : exec i s = .next t) : t.sp = s.sp := by
  refine unchanged_of_exec State.sp (fun _ => rfl) (fun _ => ?_) h
  cases i with
  | call nnn => exact absurd rfl (hcall nnn)
  | ret => exact absurd rfl hret
  | _ => rfl

theorem fb_of_exec (hcls : i ≠ .cls) (hdrw : ∀ x y n, i ≠ .drw x y n) (h : exec i s = .next t) : t.fb = s.fb := by
  refine unchanged_of_exec State.fb (fun _ => rfl) (fun _ => ?_) h
  cases i with
  | cls => exact absurd rfl hcls
  | drw x y n => exact absurd rfl (hdrw x y n)
  | _ => rfl

theorem mem_of_exec (hi : ∀ x, i ≠ .ldB x ∧ i ≠ .ldMemVx x) (h : exec i s = .next t) : t.mem = s.mem := by
  refine unchanged_of_exec State.mem (fun _ => rfl) (fun _ => ?_) h
  cases i with
  | ldB x => exact absurd rfl (hi x).1
  | ldMemVx x => exact absurd rfl (hi x).2
  | _ => rfl

theorem i_of_exec (hldI : ∀ nnn, i ≠ .ldI nnn) (hi : ∀ x, i ≠ .addI x ∧ i ≠ .ldF x) (h : exec i s = .next t) :
    t.i = s.i := by
  refine unchanged_of_exec State.i (fun _ => rfl) (fun _ => ?_) h
  cases i with
  | ldI nnn => exact absurd rfl (hldI nnn)
  | addI x => exact absurd rfl (hi x).1
  | ldF x => exact absurd rfl (hi x).2
  | _ => rfl

theorem dt_of_exec (hi : ∀ x, i ≠ .ldDtVx x) (h : exec i s = .next t) : t.dt = s.dt := by
  refine unchanged_of_exec State.dt (fun _ => rfl) (fun _ => ?_) h
  cases i with
  | ldDtVx x => exact absurd rfl (hi x)
  | _ => rfl

theorem st_of_exec (hi : ∀ x, i ≠ .ldStVx x) (h : exec i s = .next t) : t.st = s.st := by
  refine unchanged_of_exec State.st (fun _ => rfl) (fun _ => ?_) h
  cases i with
  | ldStVx x => exact absurd rfl (hi x)
  | _ => rfl

theorem draws_of_exec (hi : ∀ x nn, i ≠ .rnd x nn) (h : exec i s = .next t) : t.draws = s.draws := by
  refine unchanged_of_exec State.draws (fun _ => rfl) (fun _ => ?_) h
  cases i with
  | rnd x nn => exact absurd rfl (hi x nn)
  | _ => rfl

theorem waitReg_of_exec (hi : ∀ x, i ≠ .ldVxK x) (h : exec i s = .next t) : t.waitReg = s.waitReg := by
  refine unchanged_of_exec State.waitReg (fun _ => rfl) (fun _ => ?_) h
  cases i with
  | ldVxK x => exact absurd rfl (hi x)
  | _ => rfl

theorem config_of_exec (h : exec i s = .next t) : t.config = s.config := by
  refine unchanged_of_exec State.config (fun _ => rfl) (fun _ => ?_) h
  cases i <;> rfl

theorem loadOpen_of_exec (h : exec i s = .next t) : t.loadOpen = s.loadOpen := by
  refine unchanged_of_exec State.loadOpen (fun _ => rfl) (fun _ => ?_) h
  cases i <;> rfl

theorem events_of_exec (h : exec i s = .next t) : t.events = s.events := by
  refine unchanged_of_exec State.events (fun _ => rfl) (fun _ => ?_) h
  cases i <;> rfl

theorem key_of_exec (h : exec i s = .next t) : t.key = s.key := by
  refine unchanged_of_exec State.key (fun _ => rfl) (fun _ => ?_) h
  cases i <;> rfl

theorem status_of_exec (hi : ∀ x, i ≠ .ldVxK x) (hf : executionFault i s = none) (h : exec i s = .next t) :
    t.status = s.status := by
  rw [eq_footprint_of_exec hf h]
  cases i with
  | ldVxK x => exact absurd rfl (hi x)
  | _ => rfl

theorem fault_of_exec (hf : executionFault i s = none) (h : exec i s = .next t) : t.fault = s.fault := by
  rw [eq_footprint_of_exec hf h]
  cases i <;> rfl

end

/-- Settles O53: raising writes the status and the record alone, and completing writes the footprint alone. -/
theorem eachPieceOfStateHasItsOwnWriters : Obligations.EachPieceOfStateHasItsOwnWriters :=
  fun _ _ _ h => ⟨fun hi => stack_of_exec hi h, fun hcall hret => sp_of_exec hcall hret h,
    fun hcls hdrw => fb_of_exec hcls hdrw h, fun hi => ⟨sameBytes_of_mem_eq (mem_of_exec hi h), mem_of_exec hi h⟩,
    fun hldI hi => i_of_exec hldI hi h, fun hi => dt_of_exec hi h, fun hi => st_of_exec hi h,
    fun hi => draws_of_exec hi h, fun hi => waitReg_of_exec hi h, fun hi hf => status_of_exec hi hf h,
    fun hf => fault_of_exec hf h, config_of_exec h, loadOpen_of_exec h, events_of_exec h, key_of_exec h⟩

/-- Settles O14: an execution has a fault to raise or completes. -/
theorem everyInstructionAnswersANextState : Obligations.EveryInstructionAnswersANextState := by
  intro i s
  cases hf : executionFault i s with
  | some kind => exact ⟨_, exec_of_executionFault hf⟩
  | none =>
    obtain ⟨t, ht, -⟩ := exec_of_no_executionFault hf
    exact ⟨t, ht⟩

/-! ## The registers -/

section
variable {i : Instr} {s t : State} {r : Reg}

/-- A completed execution leaves a register alone that is not one of its destinations (`10_state.md` R21). -/
theorem reg_of_not_mayWrite (hf : executionFault i s = none) (h : exec i s = .next t) (hw : mayWrite i r = false) :
    t.reg r = s.reg r := by
  have of_same_v (hv : (footprint i s t).v = s.v) : t.reg r = s.reg r :=
    congrArg (fun v : Vector Byte 16 => v[r]) ((congrArg State.v (eq_footprint_of_exec hf h)).trans hv)
  cases i with
  | ldImm x nn | addImm x nn | ldReg x y | or x y | and x y | xor x y | ldVxDt x | rnd x nn =>
    cases h
    exact State.reg_setReg_ne _ (by simpa [mayWrite] using hw)
  | addReg x y | sub x y | subn x y | shr x y | shl x y =>
    cases h
    obtain ⟨hx, hvf⟩ : r ≠ x ∧ r ≠ vf := by simpa [mayWrite] using hw
    exact (State.reg_setReg_ne _ hvf).trans (State.reg_setReg_ne _ hx)
  | drw x y n =>
    rw [exec_drw_in_memory (executionFault_drw_eq_none.mp hf)] at h
    cases h
    exact State.reg_afterDraw_ne (by simpa [mayWrite] using hw)
  | ldVxMem x =>
    obtain ⟨u, hu, -, hother, -⟩ := (registerLoadReadsV0ToVx s x).2 (executionFault_ldVxMem_eq_none.mp hf)
    obtain rfl : u = t := by simpa [hu] using h
    exact hother r (by simpa [mayWrite] using hw)
  | cls | ret | jp nnn | call nnn | seImm x nn | sneImm x nn | seReg x y | sneReg x y | ldI nnn | jpV0 nnn | skp x
  | sknp x | ldVxK x | ldDtVx x | ldStVx x | addI x | ldF x | ldB x | ldMemVx x => exact of_same_v rfl

/-- A completed flag writer leaves a flag in VF (`10_state.md` R22). -/
theorem reg_vf_of_writesFlag (hf : executionFault i s = none) (h : exec i s = .next t) (hw : writesFlag i = true) :
    ∃ b, t.reg vf = flagByte b := by
  cases i with
  | addReg x y | sub x y | subn x y | shr x y | shl x y =>
    cases h
    exact ⟨_, State.reg_setReg_same vf _⟩
  | drw x y n =>
    rw [exec_drw_in_memory (executionFault_drw_eq_none.mp hf)] at h
    cases h
    exact ⟨_, State.reg_vf_afterDraw⟩
  | _ => cases hw

theorem flagByte_eq_zero_or_one (b : Bool) : flagByte b = 0 ∨ flagByte b = 1 := by
  cases b
  · exact .inl rfl
  · exact .inr rfl

end

/-- Settles O27: raising a fault writes no register, and completing writes destinations alone. -/
theorem registersChangeOnlyAsDestinations : Obligations.RegistersChangeOnlyAsDestinations := by
  intro i s t r h hw
  obtain ⟨kind, -, rfl⟩ | hf := exec_cases h
  · rfl
  · exact reg_of_not_mayWrite hf h hw

/-- Settles O26: an execution that does not halt has completed, so a flag writer has left its flag; for any other
instruction VF is a register like the rest. -/
theorem vfIsAFlagForExactlySixInstructions : Obligations.VfIsAFlagForExactlySixInstructions := by
  intro i s t h _
  refine ⟨fun hw hrunning => ?flag, fun _ hw => registersChangeOnlyAsDestinations i s t vf h hw⟩
  obtain ⟨kind, -, rfl⟩ | hf := exec_cases h
  · cases hrunning
  · obtain ⟨b, hb⟩ := reg_vf_of_writesFlag hf h hw
    rw [hb]
    exact flagByte_eq_zero_or_one b

end Sys2Proof.Machine

/-! The proofs about what an instruction reads of the world outside: the levels of KEY and the random source
(`10_state.md` R36, R39), seen through a change of these alone. -/

namespace Sys2Proof.Machine

/-- The machine with its keys, its seed and its count of draws changed. -/
def State.mapInputs (s : State) (key : Vector Bool 16 → Vector Bool 16) (seed draws : Nat → Nat) : State :=
  { s with
    key := key s.key
    config := { s.config with randomSeed := seed s.config.randomSeed }
    draws := draws s.draws }

section
variable {s t : State} {i : Instr} {key : Vector Bool 16 → Vector Bool 16} {seed draws : Nat → Nat}

/-- The fault that an execution raises does not depend on keys or the random source. -/
theorem executionFault_mapInputs (i : Instr) :
    executionFault i (s.mapInputs key seed draws) = executionFault i s := rfl

theorem State.push_mapInputs (a : Word) :
    (s.mapInputs key seed draws).push a = (s.push a).map (State.mapInputs · key seed draws) := by
  by_cases h : s.sp.val < 16 <;> simp [State.push, h, State.mapInputs]

theorem State.pop_mapInputs :
    (s.mapInputs key seed draws).pop = s.pop.map fun p => (p.1, p.2.mapInputs key seed draws) := by
  by_cases h : 0 < s.sp.val <;> simp [State.pop, h, State.mapInputs]

theorem State.storeBytes_mapInputs (a : Nat) (bs : List Byte) :
    (s.mapInputs key seed draws).storeBytes a bs = (s.storeBytes a bs).mapInputs key seed draws := by
  induction bs generalizing s a with
  | nil => rfl
  | cons b bs ih => exact ih (s := s.writeByte a b) (a + 1)

theorem State.loadRegs_mapInputs (rs : List Reg) :
    (s.mapInputs key seed draws).loadRegs rs = (s.loadRegs rs).mapInputs key seed draws := by
  induction rs generalizing s with
  | nil => rfl
  | cons r rs ih => exact ih (s := s.setReg r (s.readByte (s.ea r)))

/-- An execution passes the keys and the random source by, but for a key skip, which needs the keys it read, and RND,
which needs the source it drew from. -/
theorem exec_mapInputs (hkey : (∃ x, i = .skp x ∨ i = .sknp x) → key = id)
    (hrnd : (∃ x nn, i = .rnd x nn) → seed = id ∧ draws = id) (h : exec i s = .next t) :
    exec i (s.mapInputs key seed draws) = .next (t.mapInputs key seed draws) := by
  obtain ⟨kind, hf, rfl⟩ | hf := exec_cases h
  · exact exec_of_executionFault ((executionFault_mapInputs i).trans hf)
  · cases i with
    | call nnn =>
      obtain ⟨hfull, -⟩ | ⟨-, u, hpush, -⟩ := s.push_cases (s.pc + 2)
      · have hroom := executionFault_call_eq_none.mp hf
        omega
      · rw [exec_call_of_push hpush] at h
        cases h
        exact exec_call_of_push ((State.push_mapInputs _).trans (congrArg _ hpush))
    | ret =>
      obtain ⟨hempty, -⟩ | ⟨-, a, u, hpop, -⟩ := s.pop_cases
      · have hlive := executionFault_ret_eq_none.mp hf
        omega
      · rw [exec_ret_of_pop hpop] at h
        cases h
        exact exec_ret_of_pop (State.pop_mapInputs.trans (congrArg _ hpop))
    | drw x y n =>
      have hin := executionFault_drw_eq_none.mp hf
      rw [exec_drw_in_memory hin] at h
      cases h
      exact exec_drw_in_memory (s := s.mapInputs key seed draws) hin
    | ldB x =>
      have hle := executionFault_ldB_eq_none.mp hf
      rw [exec_ldB_of_le hle] at h
      cases h
      exact (exec_ldB_of_le (s := s.mapInputs key seed draws) hle).trans
        (congrArg (fun u : State => (.next u.advance : Result)) (State.storeBytes_mapInputs _ _))
    | ldMemVx x =>
      have hle := executionFault_ldMemVx_eq_none.mp hf
      rw [exec_ldMemVx_of_le hle] at h
      cases h
      exact (exec_ldMemVx_of_le (s := s.mapInputs key seed draws) hle).trans
        (congrArg (fun u : State => (.next u.advance : Result)) (State.storeBytes_mapInputs _ _))
    | ldVxMem x =>
      have hle := executionFault_ldVxMem_eq_none.mp hf
      rw [exec_ldVxMem_of_le hle] at h
      cases h
      exact (exec_ldVxMem_of_le (s := s.mapInputs key seed draws) hle).trans
        (congrArg (fun u : State => (.next u.advance : Result)) (State.loadRegs_mapInputs _))
    | skp x =>
      cases h
      rw [hkey ⟨x, .inl rfl⟩]
      rfl
    | sknp x =>
      cases h
      rw [hkey ⟨x, .inr rfl⟩]
      rfl
    | rnd x nn =>
      cases h
      obtain ⟨rfl, rfl⟩ := hrnd ⟨x, nn, rfl⟩
      rfl
    | cls | jp nnn | jpV0 nnn | seImm x nn | sneImm x nn | seReg x y | sneReg x y | ldImm x nn | addImm x nn
    | ldReg x y | or x y | and x y | xor x y | addReg x y | sub x y | shr x y | subn x y | shl x y | ldI nnn | addI x
    | ldF x | ldVxDt x | ldDtVx x | ldStVx x | ldVxK x =>
      cases h
      rfl

end

/-- Settles O41: with the keys kept, any instruction but RND passes another seed and another count by. -/
theorem theRandomSourceReachesOnlyRnd : Obligations.TheRandomSourceReachesOnlyRnd := by
  intro i s t seed draws hi h
  exact ⟨exec_mapInputs (key := id) (seed := fun _ => seed) (draws := fun _ => draws) (fun _ => rfl)
    (fun ⟨x, nn, hrnd⟩ => absurd hrnd (hi x nn)) h, draws_of_exec hi h, config_of_exec h⟩

/-- Settles O42: with the random source kept, any instruction but SKP and SKNP passes other keys by. -/
theorem keyLevelsReachOnlyTheKeySkips : Obligations.KeyLevelsReachOnlyTheKeySkips := by
  intro i s t key h
  refine ⟨key_of_exec h, fun hi =>
    exec_mapInputs (key := fun _ => key) (seed := id) (draws := id) ?_ (fun _ => ⟨rfl, rfl⟩) h⟩
  rintro ⟨x, hskp | hsknp⟩
  · exact absurd hskp (hi x).1
  · exact absurd hsknp (hi x).2

end Sys2Proof.Machine

/-! The proofs about two executions together: a sprite drawn twice, a call and its return, a skip and its complement,
and a store that a fetch reads (`41_display.md` R123, `42_control_transfer.md` R134, `43_skips.md` R146,
`20_memory.md` R62). -/

namespace Sys2Proof.Machine

section
variable {s s' : State} {x y : Reg} {n : Nat} {row : Fin 32} {col : Fin 64}

/-! ## The same sprite a second time -/

/-- The pixels that a sprite covers depend on Vx, Vy, I, the sprite's bytes and the quirk setting alone. -/
theorem spriteCovers_congr (hx : s'.reg x = s.reg x) (hy : s'.reg y = s.reg y) (hi : s'.i = s.i)
    (hbytes : ∀ r < n, s'.readByte (s.i.toNat + r) = s.readByte (s.i.toNat + r))
    (hwrap : s'.config.quirkWrapSprites = s.config.quirkWrapSprites) :
    SpriteCovers s' x y n row col ↔ SpriteCovers s x y n row col := by
  unfold SpriteCovers
  rw [hx, hy, hi, hwrap]
  refine exists_congr fun r => exists_congr fun c => and_congr_right fun hr => ?_
  rw [hbytes r hr]

section
variable (hn : n ≤ 32) (hfb : s'.fb = (s.afterDraw x y n).fb)
  (hcovers : ∀ row col, SpriteCovers s' x y n row col ↔ SpriteCovers s x y n row col)
include hfb

theorem pixel_of_fb_afterDraw : s'.pixel row col = (spriteDrawn s x y n).1.pixel row col :=
  congrArg (Display.pixel · row col) hfb

include hn hcovers

/-- A pixel that is covered is inverted twice, and any other is left alone twice. -/
theorem spriteDrawn_twice : (spriteDrawn s' x y n).1 = s.fb := by
  refine Display.ext_pixel fun row col => ?_
  have hpixel : s'.pixel row col = (spriteDrawn s x y n).1.pixel row col := pixel_of_fb_afterDraw hfb
  by_cases h : SpriteCovers s x y n row col
  · rw [pixel_spriteDrawn_of_covers hn ((hcovers row col).mpr h), hpixel, pixel_spriteDrawn_of_covers hn h,
      Bool.not_not]
    rfl
  · rw [pixel_spriteDrawn_of_not_covers hn (mt (hcovers row col).mp h), hpixel, pixel_spriteDrawn_of_not_covers hn h]
    rfl

/-- The second drawing meets a set pixel exactly where the first set one: on a covered pixel that was 0. -/
theorem spriteDrawn_twice_hit : (spriteDrawn s' x y n).2 = true ↔
    ∃ row col, s.pixel row col = false ∧ (s.afterDraw x y n).pixel row col = true := by
  refine (spriteDrawn_hit hn).trans (exists_congr fun row => exists_congr fun col => ?_)
  have hpixel : s'.pixel row col = (spriteDrawn s x y n).1.pixel row col := pixel_of_fb_afterDraw hfb
  have hafter : (s.afterDraw x y n).pixel row col = (spriteDrawn s x y n).1.pixel row col := rfl
  rw [hcovers row col, hpixel, hafter]
  by_cases h : SpriteCovers s x y n row col
  · simp [h, pixel_spriteDrawn_of_covers hn h]
  · simp [h, pixel_spriteDrawn_of_not_covers hn h]

end

end

/-- Settles O30: the second sprite covers the pixels that the first did, so it inverts them back, and its flag is set by
those that the first turned on. -/
theorem drawingTwiceRestoresTheDisplay : Obligations.DrawingTwiceRestoresTheDisplay := by
  intro s t s' u x y n hn hin ht hfb hx hy hi hbytes hwrap hu
  have hn32 : n ≤ 32 := by omega
  have hin' : n = 0 ∨ s'.i.toNat + n - 1 ≤ 0xFFF := by rwa [hi]
  obtain rfl : s.afterDraw x y n = t := by simpa [exec_drw_in_memory hin] using ht
  obtain rfl : s'.afterDraw x y n = u := by simpa [exec_drw_in_memory hin'] using hu
  have hcovers (row col) : SpriteCovers s' x y n row col ↔ SpriteCovers s x y n row col :=
    spriteCovers_congr hx hy hi hbytes hwrap
  have hhit := spriteDrawn_twice_hit hn32 hfb hcovers
  refine ⟨spriteDrawn_twice hn32 hfb hcovers, fun hset => ?turnedOn, fun hclear => ?noneTurnedOn⟩
  case turnedOn =>
    rw [State.reg_vf_afterDraw, hhit.mpr hset]
    rfl
  case noneTurnedOn =>
    rw [State.reg_vf_afterDraw, Bool.eq_false_iff.mpr (mt hhit.mp hclear)]
    rfl

/-! ## A call and its return -/

/-- Settles O34: the RET pops the entry that the CALL pushed. -/
theorem returnGoesBackBehindItsCall : Obligations.ReturnGoesBackBehindItsCall := by
  intro s t u nnn hroom hcall hsp hlive
  obtain ⟨t', ht', -, hpushed, htop, -⟩ := (callPushesTheNextAddressOrOverflows s nnn).2 hroom
  obtain rfl : t' = t := by simpa [ht'] using hcall
  have hsp' : u.sp.val = s.sp.val + 1 := (congrArg Fin.val hsp).trans hpushed
  obtain ⟨w, hw, hpopped, hpc, -⟩ := (returnPopsTheTopEntryOrUnderflows u).2 (by omega)
  refine ⟨w, hw, ?_, Fin.ext (by omega)⟩
  rw [hpc ⟨s.sp.val, hroom⟩ (by simp [hsp']), hlive ⟨s.sp.val, hroom⟩ (by simp [hpushed]), htop ⟨s.sp.val, hroom⟩ rfl]

/-! ## A skip and its complement -/

/-- Settles O37: the two of a pair test a condition and its negation. -/
theorem pairedSkipsAreComplements : Obligations.PairedSkipsAreComplements := by
  intro i j s t u hpair ht hu
  have of_complements {p : Prop} [Decidable p] (hi : exec i s = .next { s with pc := if p then s.pc + 4 else s.pc + 2 })
      (hj : exec j s = .next { s with pc := if ¬ p then s.pc + 4 else s.pc + 2 }) :
      (t.pc = s.pc + 4 ∧ u.pc = s.pc + 2) ∨ (t.pc = s.pc + 2 ∧ u.pc = s.pc + 4) := by
    rw [hi] at ht
    rw [hj] at hu
    cases ht
    cases hu
    by_cases hp : p <;> simp [hp]
  obtain ⟨x, nn, rfl, rfl⟩ | ⟨x, y, rfl, rfl⟩ | ⟨x, rfl, rfl⟩ := hpair
  · obtain ⟨hse, hsne, -⟩ := comparisonSkipsMovePcAlone s x x nn
    exact of_complements hse hsne
  · obtain ⟨-, -, hse, hsne⟩ := comparisonSkipsMovePcAlone s x y 0
    exact of_complements hse hsne
  · obtain ⟨hskp, hsknp⟩ := keySkipsTestTheSelectedKey s x (lowNibble (s.reg x)) (lowNibble_val _)
    simp only [← Bool.not_eq_true] at hsknp
    exact of_complements hskp hsknp

/-! ## A store that a fetch reads -/

/-- Settles O47: the fetch takes the bytes where Vr and the register after it were stored. -/
theorem aStoreIsSeenByTheNextFetch : Obligations.AStoreIsSeenByTheNextFetch := by
  intro s t x r a hle hexec hr ha
  obtain ⟨t', ht', hstored, -⟩ := (registerStoreWritesV0ToVx s x).2 hle
  obtain rfl : t' = t := by simpa [ht'] using hexec
  have hrx : r.val < x.val := hr
  have hnext : (r + 1).val = r.val + 1 := Fin.val_add_one_of_lt (lt_of_lt_of_le hr (Fin.le_last x))
  have hea : s.ea r + 1 = s.ea (r + 1).val := by rw [hnext]; rfl
  have hfetch : a.toNat ≤ 0xFFE := by
    simp only [State.ea] at ha hle
    omega
  rw [State.fetch_of_le (s := { t' with pc := a }) hfetch]
  show some (wordOfBytes (t'.readByte a.toNat) (t'.readByte (a.toNat + 1))) = _
  rw [ha, hea, hstored r hr.le, hstored (r + 1) (Fin.le_def.mpr (by omega))]

end Sys2Proof.Machine

/-! The proofs about the events: what one event can do, said once, and what follows for the load port, STATUS and the
timers (`00_scope.md` R8, `10_state.md` R33, `60_exceptions.md` R221 to R228, `70_reset_and_hazards.md` R250 to
R258). -/

namespace Sys2Proof.Machine

/-! ## All that an event can do -/

/-- The effects of one event on `s` that has an answer: which one it is, when it has it, and the state it leaves. -/
inductive Transition (s : State) : Event → State → Prop
  /-- a `step` of a machine that is not Running (`60_exceptions.md` R221) -/
  | idle (hs : s.status ≠ .running) : Transition s .step s
  /-- a `step` that raises its fault (R201 to R204) -/
  | raises {kind : FaultKind} (hs : s.status = .running) (hx : expectedFault s = some kind) :
      Transition s .step (s.closeLoad.raise kind s.fetch)
  /-- a `step` on an illegal word that is a no-operation (`30_encoding.md` R77) -/
  | passes {w : Word} (hs : s.status = .running) (hw : s.fetch = some w) (hd : decode w = none)
      (hc : s.config.permissiveUnknownOpcode = true) : Transition s .step s.closeLoad.advance
  /-- a `step` whose instruction completes -/
  | executes {w : Word} {i : Instr} {t : State} (hs : s.status = .running) (hw : s.fetch = some w)
      (hd : decode w = some i) (hf : executionFault i s = none) (ht : exec i s.closeLoad = .next t) :
      Transition s .step t
  /-- a `tick60` of a halted machine (R224) -/
  | frozen (hs : s.status = .halted) : Transition s .tick60 s
  /-- a `tick60` of any other machine (R224) -/
  | ticks (hs : s.status ≠ .halted) : Transition s .tick60 ((s.setDt (countDown s.dt)).setSt (countDown s.st))
  /-- the press that ends a wait (`44_keywait_random.md` R151) -/
  | press {k : Key} (hs : s.status = .awaitingKey) (hk : s.keyDown k = false) :
      Transition s (.keySet k) ((s.setKey k true).completeWait k)
  /-- a `key_set` that only sets its key (`60_exceptions.md` R228) -/
  | keyDown {k : Key} (h : s.status ≠ .awaitingKey ∨ s.keyDown k = true) :
      Transition s (.keySet k) (s.setKey k true)
  /-- a `key_clear` (R228) -/
  | keyUp {k : Key} : Transition s (.keyClear k) (s.setKey k false)
  /-- a reset that can sample its inputs (`70_reset_and_hazards.md` R250) -/
  | reset {inputs : ConfigInputs} (hq : inputs.quirkResetVfOnShift = false) :
      Transition s (.reset inputs) { State.resetWith (sampledConfig inputs) with events := s.events }
  /-- a load through the open port of a program that fits (R256) -/
  | load {bytes : List Byte} (hopen : s.loadOpen = true) (hfits : bytes.length ≤ 3584) :
      Transition s (.loadProgram bytes) (s.storeBytes 0x200 bytes).closeLoad

section
variable {s t : State} {e : Event}

theorem transition_of_step_event (h : s.deliver .step = .next t) : Transition s .step t := by
  by_cases hs : s.status = .running
  · obtain ⟨kind, hx, rfl⟩ | ⟨hx, -⟩ := State.deliver_step_cases hs h
    · exact .raises hs hx
    · rw [State.deliver_step_of_running hs] at h
      cases hw : s.fetch with
      | none => simp [expectedFault_of_fetch_none hw] at hx
      | some w =>
        cases hd : decode w with
        | none =>
          have hc : s.config.permissiveUnknownOpcode = true := by simpa [expectedFault_of_illegal hw hd] using hx
          rw [State.runInstruction_of_illegal_permissive (s := s.closeLoad) hw hd hc] at h
          cases h
          exact .passes hs hw hd hc
        | some i =>
          rw [State.runInstruction_of_decode (s := s.closeLoad) hw hd] at h
          exact .executes hs hw hd ((expectedFault_of_decode hw hd).symm.trans hx) h
  · obtain rfl : s = t := by simpa [State.deliver_step_of_not_running hs] using h
    exact .idle hs

theorem transition_of_tick60 (s : State) : Transition s .tick60 s.tick60 := by
  by_cases hs : s.status = .halted
  · rw [State.tick60_of_halted hs]
    exact .frozen hs
  · rw [State.tick60_of_not_halted hs]
    exact .ticks hs

theorem transition_of_keySet (s : State) (k : Key) : Transition s (.keySet k) (s.keySet k) := by
  by_cases h : s.status ≠ .awaitingKey ∨ s.keyDown k = true
  · rw [State.keySet_of_no_press h]
    exact .keyDown h
  · obtain ⟨hs, hk⟩ : s.status = .awaitingKey ∧ s.keyDown k = false := by simpa using h
    rw [State.keySet_of_press hs hk]
    exact .press hs hk

theorem State.deliver_reset_of_shift_quirk (s : State) {inputs : ConfigInputs}
    (h : inputs.quirkResetVfOnShift = true) : s.deliver (.reset inputs) = .refused .quirkResetVfOnShift := by
  simp [State.deliver, State.resetEvent, sampleConfig, h]

theorem transition_of_reset {inputs : ConfigInputs} (h : s.deliver (.reset inputs) = .next t) :
    Transition s (.reset inputs) t := by
  cases hq : inputs.quirkResetVfOnShift with
  | false =>
    rw [State.deliver_reset s hq] at h
    cases h
    exact .reset hq
  | true =>
    rw [State.deliver_reset_of_shift_quirk s hq] at h
    cases h

theorem State.loadProgram_of_closed {bytes : List Byte} (h : s.loadOpen = false) :
    s.loadProgram bytes = .refused .loadOutsideContract :=
  if_neg (Bool.eq_false_iff.mp h)

theorem transition_of_load {bytes : List Byte} (h : s.loadProgram bytes = .next t) :
    Transition s (.loadProgram bytes) t := by
  cases hopen : s.loadOpen with
  | false =>
    rw [State.loadProgram_of_closed hopen] at h
    cases h
  | true =>
    by_cases hfits : bytes.length ≤ 3584
    · rw [State.loadProgram_of_fits hopen hfits] at h
      cases h
      exact .load hopen hfits
    · rw [State.loadProgram_of_too_large hopen (by omega)] at h
      cases h

/-- Every event that is answered by a next state has one of these effects. -/
theorem transition_of_deliver (h : s.deliver e = .next t) : Transition s e t := by
  cases e with
  | step => exact transition_of_step_event h
  | tick60 =>
    obtain rfl : s.tick60 = t := by simpa [State.deliver] using h
    exact transition_of_tick60 s
  | keySet k =>
    obtain rfl : s.keySet k = t := by simpa [State.deliver] using h
    exact transition_of_keySet s k
  | keyClear k =>
    obtain rfl : s.keyClear k = t := by simpa [State.deliver] using h
    exact .keyUp
  | reset inputs => exact transition_of_reset h
  | loadProgram bytes => exact transition_of_load h

/-- A step of the machine is the effect of its next event (log entry 2). -/
theorem transition_of_step (h : step s = .next t) : Transition s.takeEvent s.nextEvent t := transition_of_deliver h

/-! ## The load port (`70_reset_and_hazards.md` R258) -/

/-- An executed instruction finds the port closed and leaves it so. -/
theorem loadOpen_of_exec_closeLoad {i : Instr} (h : exec i s.closeLoad = .next t) : t.loadOpen = false :=
  loadOpen_of_exec h

/-- Only a reset opens a closed port. -/
theorem Transition.loadOpen_eq_false (h : Transition s e t) (he : ∀ inputs, e ≠ .reset inputs)
    (hclosed : s.loadOpen = false) : t.loadOpen = false := by
  cases h with
  | executes _ _ _ _ ht => exact loadOpen_of_exec_closeLoad ht
  | idle | frozen | ticks | press | keyDown | keyUp => exact hclosed
  | raises | passes | load => rfl
  | reset => exact absurd rfl (he _)

end

/-- Settles O4: a closed port refuses, what a Running step or a load leaves has the port closed, and only a reset opens
it. -/
theorem loadIsRefusedAfterTheFirstStepOrLoad : Obligations.LoadIsRefusedAfterTheFirstStepOrLoad := by
  refine ⟨fun _ _ => State.loadProgram_of_closed, fun s t hs h => ?step, fun s t bytes h => ?load,
    fun s t e he hclosed h => (transition_of_deliver h).loadOpen_eq_false he hclosed⟩
  case step =>
    cases transition_of_deliver h with
    | idle hidle => exact absurd hs hidle
    | raises | passes => rfl
    | executes _ _ _ _ ht => exact loadOpen_of_exec_closeLoad ht
  case load =>
    cases transition_of_deliver h
    rfl

/-- Settles O2: the inputs cannot be sampled. -/
theorem resetRefusesTheUndefinedShiftQuirk : Obligations.ResetRefusesTheUndefinedShiftQuirk :=
  fun s _ h => s.deliver_reset_of_shift_quirk h

/-! ## The order of the events (log entry 2) -/

theorem step_of_events_cons {s : State} {e : Event} {rest : List Event} (h : s.events = e :: rest) :
    step s = { s with events := rest }.deliver e := by
  rw [step, State.takeEvent, State.nextEvent, h]
  rfl

theorem State.takeEvent_of_events_nil {s : State} (h : s.events = []) : s.takeEvent = s := by
  cases s
  cases h
  rfl

theorem step_of_events_nil {s : State} (h : s.events = []) : step s = s.deliver .step := by
  rw [step, State.takeEvent_of_events_nil h, State.nextEvent, h]

/-- Settles O13: an event laid out is taken off the list; an empty list stays. -/
theorem stepTakesTheOldestEvent : Obligations.StepTakesTheOldestEvent :=
  ⟨fun _ _ _ => step_of_events_cons, fun _ => step_of_events_nil⟩

/-- Settles O12: the step event of the Running machine closes the port and runs what the fetch decodes to. -/
theorem stepRunsTheDecodedInstruction : Obligations.StepRunsTheDecodedInstruction := by
  intro s w i he hs hw hd
  rw [step, he, State.deliver_step_of_running (s := s.takeEvent) hs]
  exact State.runInstruction_of_decode (s := s.takeEvent.closeLoad) hw hd

/-! ## STATUS -/

/-- Settles O18: the effects that change STATUS are those of R33. -/
theorem statusChangesOnlyByTheListedTransitions : Obligations.StatusChangesOnlyByTheListedTransitions := by
  intro s t e h hne
  cases transition_of_deliver h with
  | idle | passes | frozen | ticks | keyDown | keyUp => exact absurd rfl hne
  | load => exact absurd (State.storeBytes_status _ _) hne
  | raises hs hx => exact .inr (.inr (.inl ⟨hs, rfl, rfl, by simp [hx]⟩))
  | press hs hk => exact .inr (.inl ⟨hs, rfl, _, rfl, hk⟩)
  | reset => exact .inr (.inr (.inr ⟨rfl, _, rfl⟩))
  | @executes w i t hs hw hd hf ht =>
    obtain ⟨u, hu, -, hstatus⟩ := exec_of_no_executionFault (s := s.closeLoad) hf
    obtain rfl : u = t := by simpa [hu] using ht
    obtain hsame | ⟨⟨x, rfl⟩, hwait⟩ := hstatus
    · exact absurd hsame hne
    · exact .inl ⟨hs, hwait, rfl, w, x, hw, hd⟩

/-! ## The timers -/

theorem State.tick60_status (s : State) : s.tick60.status = s.status := by
  by_cases hs : s.status = .halted
  · rw [State.tick60_of_halted hs]
  · rw [State.tick60_of_not_halted hs]
    rfl

/-- Settles O50, by induction on the number of ticks: each takes one more off both timers. -/
theorem manyTicksReachZeroAndStay : Obligations.ManyTicksReachZeroAndStay := by
  intro m s hs
  induction m generalizing s with
  | zero => exact ⟨rfl, rfl⟩
  | succ m ih =>
    obtain ⟨hdt, hst⟩ := ih s.tick60 (by rwa [State.tick60_status])
    have htick := State.tick60_of_not_halted hs
    have hdt1 : s.tick60.dt.toNat = s.dt.toNat - 1 := by rw [htick]; exact toNat_countDown s.dt
    have hst1 : s.tick60.st.toNat = s.st.toNat - 1 := by rw [htick]; exact toNat_countDown s.st
    rw [Function.iterate_succ_apply]
    omega

/-- An instruction that changes DT is LD DT, Vx, and DT becomes Vx. -/
theorem dt_cases_of_exec {i : Instr} {s t : State} (h : exec i s = .next t) :
    (∃ x, i = .ldDtVx x ∧ t.dt = s.reg x) ∨ t.dt = s.dt := by
  by_cases hi : ∃ x, i = .ldDtVx x
  · obtain ⟨x, rfl⟩ := hi
    cases h
    exact .inl ⟨x, rfl, rfl⟩
  · exact .inr (dt_of_exec (fun x hx => hi ⟨x, hx⟩) h)

/-- Settles O51: no other effect leaves a larger DT. -/
theorem onlyLoadDtRaisesTheDelayTimer : Obligations.OnlyLoadDtRaisesTheDelayTimer := by
  intro s t h hlt
  have htransition := transition_of_step h
  generalize he : s.nextEvent = e at htransition
  cases htransition with
  | idle | raises | passes | frozen | press | keyDown | keyUp => exact absurd hlt (lt_irrefl _)
  | reset => exact absurd hlt (Nat.not_lt_zero _)
  | ticks =>
    have hdown : (countDown s.dt).toNat = s.dt.toNat - 1 := toNat_countDown s.dt
    have hlt' : s.dt.toNat < (countDown s.dt).toNat := hlt
    omega
  | load =>
    rw [State.storeBytes_eq] at hlt
    exact absurd hlt (lt_irrefl _)
  | @executes w i t hs hw hd hf ht =>
    obtain ⟨x, rfl, hdt⟩ | hdt := dt_cases_of_exec ht
    · exact ⟨rfl, hs, w, x, hw, hd, hdt⟩
    · rw [hdt] at hlt
      exact absurd hlt (lt_irrefl _)

end Sys2Proof.Machine

/-! The proofs about the invariants: each holds after reset and is kept by every effect of an event, so it holds in
every state of every run (`10_state.md` R25, R33 to R35, `20_memory.md` R55, `70_reset_and_hazards.md` R252, R255). -/

namespace Sys2Proof.Machine

/-! ## From the effects of events to the steps of the machine -/

/-- A property that taking an event off the list and every effect of an event keep is kept by the machine's step. -/
theorem kept_by_step {I : State → Prop} (htake : ∀ s : State, I s → I s.takeEvent)
    (htransition : ∀ s e t, I s → Transition s e t → I t) (s t : State) (hs : I s) (h : step s = .next t) : I t :=
  htransition _ _ _ (htake s hs) (transition_of_step h)

/-! ## The memory -/

section
variable {s t : State} {i : Instr} {e : Event}

/-- A completed execution stores inside MEM only. -/
theorem wf_of_exec (hwf : s.mem.wf) (hf : executionFault i s = none) (h : exec i s = .next t) : t.mem.wf := by
  cases i with
  | ldB x =>
    have hle := executionFault_ldB_eq_none.mp hf
    rw [exec_ldB_of_le hle] at h
    cases h
    exact State.wf_storeBytes (bs := decimalDigits (s.reg x)) hwf (Nat.succ_le_succ hle)
  | ldMemVx x =>
    have hle := executionFault_ldMemVx_eq_none.mp hf
    have hlen : ((regsUpTo x).map s.reg).length = x.val + 1 := by rw [List.length_map, length_regsUpTo]
    rw [exec_ldMemVx_of_le hle] at h
    cases h
    exact State.wf_storeBytes hwf (by rw [hlen]; exact Nat.succ_le_succ hle)
  | _ =>
    rw [mem_of_exec (by simp) h]
    exact hwf

theorem Transition.keeps_memoryCanonical (h : Transition s e t) (hs : s.MemoryCanonical) : t.MemoryCanonical := by
  cases h with
  | idle | raises | passes | frozen | ticks | press | keyDown | keyUp => exact hs
  | executes _ _ _ hf ht => exact wf_of_exec (s := s.closeLoad) hs hf ht
  | reset => exact Memory.wf_nil
  | load _ hfits => exact State.wf_storeBytes hs (by unfold Config.lastAddr; omega)

end

/-- Settles O54: every store of an instruction is checked, and a program fits its window. -/
theorem everyStepKeepsMemoryCanonical : Obligations.EveryStepKeepsMemoryCanonical :=
  kept_by_step (fun _ hs => hs) fun _ _ _ hs h => h.keeps_memoryCanonical hs

/-! ## PC and the live return addresses (`10_state.md` R25) -/

section
variable {s t : State} {i : Instr} {e : Event}

theorem toNat_pc_add_two (h : s.pc.toNat ≤ 0xFFE) : (s.pc + 2).toNat = s.pc.toNat + 2 := by bv_omega

theorem toNat_pc_add_four (h : s.pc.toNat ≤ 0xFFE) : (s.pc + 4).toNat = s.pc.toNat + 4 := by bv_omega

/-- Every live stack entry is at most 0x1000. -/
def State.StackBounded (s : State) : Prop := ∀ j : Fin 16, j.val < s.sp.val → s.stack[j].toNat ≤ 0x1000

/-- The highest PC is that of JP V0: a fetch reaches 0xFFE at most, so a skip and a return stay below it. -/
theorem nextPc_le (hwf : i.WellFormed) (hpc : s.pc.toNat ≤ 0xFFE) (hstack : s.StackBounded)
    (hf : executionFault i s = none) : (nextPc i s).toNat ≤ 0x10FE := by
  have h2 := toNat_pc_add_two hpc
  have h4 := toNat_pc_add_four hpc
  cases i with
  | jp nnn | call nnn =>
    have hnnn : nnn.toNat < 0x1000 := of_decide_eq_true hwf
    exact (show nnn.toNat ≤ 0x10FE by omega)
  | jpV0 nnn =>
    have hnnn : nnn.toNat < 0x1000 := of_decide_eq_true hwf
    have hv : (s.reg 0).toNat < 2 ^ 8 := (s.reg 0).isLt
    rw [nextPc, toNat_target_add_byte _ (by omega)]
    omega
  | ret =>
    have hlive := executionFault_ret_eq_none.mp hf
    exact (hstack ⟨s.sp.val - 1, by omega⟩ (by simp; omega)).trans (by decide)
  | seImm x nn | sneImm x nn | seReg x y | sneReg x y | skp x | sknp x =>
    simp only [nextPc]
    split <;> omega
  | ldVxK x => exact hpc.trans (by decide)
  | cls | ldImm x nn | addImm x nn | ldReg x y | or x y | and x y | xor x y | addReg x y | sub x y | shr x y
  | subn x y | shl x y | ldI nnn | rnd x nn | drw x y n | ldVxDt x | ldDtVx x | ldStVx x | addI x | ldF x | ldB x
  | ldMemVx x | ldVxMem x =>
    exact (show (s.pc + 2).toNat ≤ 0x10FE by omega)

/-- CALL pushes the address after a fetched instruction, RET only gives an entry up. -/
theorem stackBounded_of_exec (hpc : s.pc.toNat ≤ 0xFFE) (hstack : s.StackBounded) (hf : executionFault i s = none)
    (h : exec i s = .next t) : t.StackBounded := by
  intro j hj
  cases i with
  | call nnn =>
    obtain ⟨u, hu, -, hsp, htop, hother, -⟩ :=
      (callPushesTheNextAddressOrOverflows s nnn).2 (executionFault_call_eq_none.mp hf)
    obtain rfl : u = t := by simpa [hu] using h
    by_cases hjtop : j.val = s.sp.val
    · rw [htop j hjtop, toNat_pc_add_two hpc]
      omega
    · rw [hother j hjtop]
      exact hstack j (by omega)
  | ret =>
    obtain ⟨u, hu, hsp, -⟩ := (returnPopsTheTopEntryOrUnderflows s).2 (executionFault_ret_eq_none.mp hf)
    obtain rfl : u = t := by simpa [hu] using h
    rw [stack_of_exec (by simp) hu]
    exact hstack j (by omega)
  | _ =>
    rw [sp_of_exec (by simp) (by simp) h] at hj
    rw [stack_of_exec (by simp) h]
    exact hstack j hj

theorem pcBounded_of_exec (hwf : i.WellFormed) (hpc : s.pc.toNat ≤ 0xFFE) (hstack : s.StackBounded)
    (hs : s.status = .running) (hf : executionFault i s = none) (h : exec i s = .next t) : t.PcBounded := by
  obtain ⟨u, hu, hnext, hstatus⟩ := exec_of_no_executionFault hf
  obtain rfl : u = t := by simpa [hu] using h
  refine ⟨?_, fun hwait => ?_, stackBounded_of_exec hpc hstack hf h⟩
  · rw [hnext]
    exact nextPc_le hwf hpc hstack hf
  · obtain hsame | ⟨⟨x, rfl⟩, -⟩ := hstatus
    · rw [hsame, hs] at hwait
      cases hwait
    · rw [hnext]
      exact hpc

/-- A machine that moves on to the next instruction and does not wait keeps the bound. -/
theorem pcBounded_of_advance (hpc : s.pc.toNat ≤ 0xFFE) (hstack : s.StackBounded) (ht : t.pc = s.pc + 2)
    (hstatus : t.status = .running) (hsp : t.sp = s.sp) (hentries : t.stack = s.stack) : t.PcBounded := by
  refine ⟨?_, by simp [hstatus], by rwa [hsp, hentries]⟩
  rw [ht, toNat_pc_add_two hpc]
  omega

theorem Transition.keeps_pcBounded (h : Transition s e t) (hs : s.PcBounded) : t.PcBounded := by
  obtain ⟨hpc, hwaiting, hstack⟩ := hs
  cases h with
  | idle | frozen | ticks | keyDown | keyUp => exact ⟨hpc, hwaiting, hstack⟩
  | raises => exact ⟨hpc, nofun, hstack⟩
  | passes hrunning hw => exact pcBounded_of_advance (State.pc_of_fetch hw) hstack rfl hrunning rfl rfl
  | executes hrunning hw hd hf ht =>
    exact pcBounded_of_exec (s := s.closeLoad) (wellFormed_of_decode hd) (State.pc_of_fetch hw) hstack hrunning hf ht
  | press hwait => exact pcBounded_of_advance (hwaiting hwait) hstack rfl rfl rfl rfl
  | reset => exact ⟨by simp [State.resetWith], nofun, nofun⟩
  | load =>
    rw [State.storeBytes_eq]
    exact ⟨hpc, hwaiting, hstack⟩

end

/-- Settles O55: a step comes from a fetch, and a press from a wait, so PC was at most 0xFFE. -/
theorem everyStepKeepsPcBounded : Obligations.EveryStepKeepsPcBounded :=
  kept_by_step (fun _ hs => hs) fun _ _ _ hs h => h.keeps_pcBounded hs

/-! ## Status, record, WAITREG and port (`10_state.md` R33 to R35) -/

section
variable {s t : State} {i : Instr} {e : Event}

/-- A Running machine without a record agrees with itself. -/
theorem coherent_of_running (hstatus : t.status = .running) (hfault : t.fault = none) : t.Coherent :=
  ⟨by simp [hstatus, hfault], by simp [hfault], by simp [hstatus], fun _ => hstatus⟩

theorem State.Coherent.fault_eq_none (hs : s.Coherent) (h : s.status ≠ .halted) : s.fault = none := by
  by_contra hfault
  exact h (hs.1.mpr hfault)

/-- UnknownOpcode is no fault of an execution (`60_exceptions.md` R202). -/
theorem executionFault_ne_unknownOpcode (i : Instr) (s : State) : executionFault i s ≠ some .unknownOpcode := by
  cases i with
  | call nnn | ret | drw x y n | ldB x | ldMemVx x | ldVxMem x =>
    simp only [executionFault]
    split <;> simp
  | _ => simp [executionFault]

/-- With the permissive configuration no step raises UnknownOpcode (`30_encoding.md` R77). -/
theorem expectedFault_ne_unknownOpcode (hc : s.config.permissiveUnknownOpcode = true) :
    expectedFault s ≠ some .unknownOpcode := by
  cases hw : s.fetch with
  | none => simp [expectedFault_of_fetch_none hw]
  | some w =>
    cases hd : decode w with
    | none => simp [expectedFault_of_illegal hw hd, hc]
    | some i => simpa [expectedFault_of_decode hw hd] using executionFault_ne_unknownOpcode i s

/-- The record of a raised fault describes the instruction at PC (`10_state.md` R35). -/
theorem coherent_of_raise {kind : FaultKind} (hx : expectedFault s = some kind) (hclosed : s.loadOpen = false) :
    (s.raise kind s.fetch).Coherent := by
  refine ⟨by simp, fun r hr => ?_, by simp, by simp [hclosed]⟩
  cases hr
  exact ⟨rfl, rfl, fun hc hkind => expectedFault_ne_unknownOpcode hc (hx.trans (congrArg some hkind))⟩

/-- The wait stands at its own instruction (`10_state.md` R34). -/
theorem coherent_of_beginWait {w : Word} {x : Reg} (hw : s.fetch = some w) (hd : decode w = some (.ldVxK x))
    (hfault : s.fault = none) (hclosed : s.loadOpen = false) : (s.beginWait x).Coherent :=
  ⟨by simp [hfault], by simp [hfault], fun _ => ⟨w, hw, hd⟩, by simp [hclosed]⟩

theorem coherent_of_exec {w : Word} (hs : s.status = .running) (hfault : s.fault = none) (hclosed : s.loadOpen = false)
    (hw : s.fetch = some w) (hd : decode w = some i) (hf : executionFault i s = none) (h : exec i s = .next t) :
    t.Coherent := by
  by_cases hi : ∃ x, i = .ldVxK x
  · obtain ⟨x, rfl⟩ := hi
    cases h
    exact coherent_of_beginWait hw hd hfault hclosed
  · exact coherent_of_running ((status_of_exec (fun x hx => hi ⟨x, hx⟩) hf h).trans hs)
      ((fault_of_exec hf h).trans hfault)

theorem Transition.keeps_coherent (h : Transition s e t) (hs : s.Coherent) : t.Coherent := by
  have no_record (hne : s.status ≠ .halted) : s.fault = none := hs.fault_eq_none hne
  cases h with
  | idle | frozen | ticks | keyDown | keyUp => exact hs
  | raises _ hx => exact coherent_of_raise (s := s.closeLoad) hx rfl
  | passes hrunning => exact coherent_of_running hrunning (no_record (by simp [hrunning]))
  | executes hrunning hw hd hf ht =>
    exact coherent_of_exec (s := s.closeLoad) hrunning (no_record (by simp [hrunning])) rfl hw hd hf ht
  | press hwait => exact coherent_of_running rfl (no_record (by simp [hwait]))
  | reset => exact coherent_of_running rfl rfl
  | load hopen =>
    obtain ⟨-, -, -, hrunning⟩ := hs
    rw [State.storeBytes_eq]
    exact coherent_of_running (hrunning hopen) (no_record (by simp [hrunning hopen]))

end

/-- Settles O56: an effect raises with the record of the instruction at PC, begins a wait at its instruction, leaves a
Running machine without a record, or touches none of these. -/
theorem everyStepKeepsTheControlStateCoherent : Obligations.EveryStepKeepsTheControlStateCoherent :=
  kept_by_step (fun _ hs => hs) fun _ _ _ hs h => h.keeps_coherent hs

/-! ## The load window (`70_reset_and_hazards.md` R255) -/

section
variable {s t : State} {e : Event}

/-- A tick finds both timers at 0 in the window. -/
theorem State.LoadWindow.tick (hs : s.LoadWindow) (hopen : s.loadOpen = true) :
    (s.setDt (countDown s.dt)).setSt (countDown s.st) = s := by
  have hreset := hs hopen
  rw [hreset]
  rfl

theorem Transition.keeps_loadWindow (h : Transition s e t) (hs : s.LoadWindow) : t.LoadWindow := by
  intro hopen
  cases h with
  | idle | frozen => exact hs hopen
  | raises | passes | load => cases hopen
  | executes _ _ _ _ ht =>
    rw [loadOpen_of_exec_closeLoad ht] at hopen
    cases hopen
  | ticks =>
    rw [hs.tick hopen]
    exact hs hopen
  | press hwait =>
    have hrunning : s.status = .running := congrArg State.status (hs hopen)
    rw [hrunning] at hwait
    cases hwait
  | keyDown => exact congrArg (State.setKey · _ true) (hs hopen)
  | keyUp => exact congrArg (State.setKey · _ false) (hs hopen)
  | reset => rfl

end

/-- Settles O57: what leaves the port open is a reset, a key, or a tick of timers at 0. -/
theorem everyStepKeepsTheLoadWindow : Obligations.EveryStepKeepsTheLoadWindow :=
  kept_by_step (fun _ hs hopen => congrArg State.takeEvent (hs hopen)) fun _ _ _ hs h => h.keeps_loadWindow hs

/-! ## Every state of every run -/

theorem inv_of_reset (config : Config) (events : List Event) :
    State.Inv { State.resetWith config with events := events } :=
  ⟨Memory.wf_nil, ⟨by simp [State.resetWith], nofun, nofun⟩, coherent_of_running rfl rfl, fun _ => rfl⟩

/-- Settles O58: memory lists nothing, PC is 0x200, nothing is on the stack, and the machine runs without a record. -/
theorem resetMeetsTheInvariants : Obligations.ResetMeetsTheInvariants :=
  ⟨inv_of_reset Config.default [], inv_of_reset⟩

/-- Settles O59, by induction on the run. -/
theorem everyReachableStateMeetsTheInvariants : Obligations.EveryReachableStateMeetsTheInvariants := by
  intro s hs
  induction hs with
  | reset config events => exact inv_of_reset config events
  | step _ h ih =>
    obtain ⟨hmem, hpc, hcontrol, hwindow⟩ := ih
    exact ⟨everyStepKeepsMemoryCanonical _ _ hmem h, everyStepKeepsPcBounded _ _ hpc h,
      everyStepKeepsTheControlStateCoherent _ _ hcontrol h, everyStepKeepsTheLoadWindow _ _ hwindow h⟩

end Sys2Proof.Machine
